-- ==== Sys2Proof/Config.lean ====
section
/-! DEFINITION. What an implementation of the block fixes: the constants of `00_scope.md` rules R5 and R6. Types of
the model write the widths as numerals; `Tests/Slice0.lean` shows that the two agree. -/

namespace Sys2Proof.Config

/-- R6 `OP_W`: width of the operation code. -/
def opW : Nat := 2
/-- R6 `LEN_W`: width of the text-length field. -/
def lenW : Nat := 8
/-- R6 `DIN_W`: width of the operand bus. -/
def dinW : Nat := 208
/-- R6 `DOUT_W`: width of the result bus. -/
def doutW : Nat := 208
/-- R6 `ST_W`: width of the status code. -/
def stW : Nat := 3
/-- R6 `TS_IN_W`: width of `PACK`'s timestamp operand. -/
def tsInW : Nat := 64
/-- R6 `RND_IN_W`: width of `PACK`'s randomness operand. -/
def rndInW : Nat := 128
/-- R6 `CHAR_W`: width of one character cell. -/
def charW : Nat := 8
/-- R5: width of the ULID value. -/
def ulidW : Nat := 128
/-- R5: width of the timestamp field. -/
def timestampW : Nat := 48
/-- R5: width of the randomness field. -/
def randomnessW : Nat := 80
/-- R5: characters of the text form. -/
def textLen : Nat := 26
/-- R5: bits of one symbol. -/
def symbolW : Nat := 5

/-- `LATENCY` of the machine that `State.reset` names. R6 leaves `LATENCY` OPEN (any natural number, 0 allowed):
DESIGN CHOICE 0 (assumption log 1). No meaning reads it and no statement rests on it: a state's latency is the
length of its pipeline, and every claim is about every length. -/
def resetLatency : Nat := 0

end Sys2Proof.Config
end

