-- ==== Sys2Proof/Word.lean ====
section
/-! DEFINITION. The words of the block (`00_scope.md` rules R5 to R8): unsigned bit vectors, bit 0 the least significant,
the first byte or character of a sequence at the most significant end. -/

namespace Sys2Proof

/-- One byte of a buffer, or one character cell (R8, R29). -/
abbrev Byte := BitVec 8
/-- The value of one base-32 symbol (R28). -/
abbrev Symbol := BitVec 5
/-- A ULID as value and as 16-byte buffer: the same 128 wires (R33). -/
abbrev Buf := BitVec 128
/-- 26 character cells, the first at the top (R8, R25, R26). -/
abbrev Text := BitVec 208
/-- The operand bus `din` (R22). -/
abbrev Din := BitVec 208
/-- The result bus `dout` (R23). -/
abbrev Dout := BitVec 208
/-- The request word `REQ = op ‖ len ‖ din` (R22). -/
abbrev ReqWord := BitVec 218
/-- The response word `RSP = status ‖ dout` (R23). -/
abbrev RspWord := BitVec 211

/-- A ULID as its pair of fields (R33): "timestamp, 48 bits unsigned, and randomness, 80 bits unsigned". -/
structure Ulid where
  timestamp : BitVec 48
  randomness : BitVec 80
deriving DecidableEq, Repr

end Sys2Proof
end

