-- ==== Sys2Proof/Syntax.lean ====
section
/-! DEFINITION. The four operations with their operands (R24, R25), the response (R23), the input ports (R75), and the
script notation of the host (R31, R32). -/

namespace Sys2Proof

/-- The four operations (R24). -/
inductive Operation where
  | pack | unpack | encode | decode
deriving DecidableEq, Repr

/-- A request with its operands as R25 lays them out; the bits an operation ignores (R27) are gone. One constructor per
row of `opcode_table.json`. -/
inductive Instr where
  /-- `PACK ts_in, rnd_in` (R34). -/
  | pack (ts : BitVec 64) (rnd : BitVec 128)
  /-- `UNPACK buf` (R35). -/
  | unpack (buf : Buf)
  /-- `ENCODE buf` (R39). -/
  | encode (buf : Buf)
  /-- `DECODE len, c[0..25]` (R42, R44): the length and the 26 cells as they lie on the bus. -/
  | decode (len : BitVec 8) (text : Text)
deriving DecidableEq, Repr

/-- Which operation a request asks for. -/
def Instr.operation : Instr → Operation
  | .pack _ _ => .pack
  | .unpack _ => .unpack
  | .encode _ => .encode
  | .decode _ _ => .decode

/-- The status of a response (R57): "A model may use an enumeration with five constructors for the status". -/
inductive Status where
  | ok | rangeError | invalidLengthError | invalidCharacterError | overflowError
deriving DecidableEq, Repr

/-- A response (R23). -/
structure Response where
  status : Status
  dout : Dout
deriving DecidableEq, Repr

/-- What the host drives on the block's input ports in one cycle (R75). -/
structure PortIn where
  rst : Bool
  reqValid : Bool
  reqOp : BitVec 2
  reqLen : BitVec 8
  reqDin : Din
deriving DecidableEq, Repr

/-! ## Scripts (R31, R32): the host's notation -/

/-- A name a script binds. `tmp` is the name the expansions of R32 use; a script's own names are numbered. -/
inductive ScriptName where
  | user (n : Nat)
  | tmp
deriving DecidableEq, Repr

/-- A numeric operand of a script line: a literal, or a bound name. -/
inductive NumOperand where
  | lit (n : Nat)
  | ref (x : ScriptName)
deriving DecidableEq, Repr

/-- The operand of `DECODE`: a text literal of any length, as the codes of its characters, or a bound name. -/
inductive TextOperand where
  | lit (codes : List Byte)
  | ref (x : ScriptName)
deriving DecidableEq, Repr

/-- A line that is one request (R31). The names after the operands are those after `->`. -/
inductive CoreLine where
  | pack (ts rnd : NumOperand) (b : ScriptName)
  | unpack (b : NumOperand) (ts rnd : ScriptName)
  | encode (b : NumOperand) (s : ScriptName)
  | decode (text : TextOperand) (b : ScriptName)
deriving DecidableEq, Repr

/-- A line of a script: one request, or a pseudo-operation of R32. -/
inductive ScriptLine where
  | core (l : CoreLine)
  | toBytes (ts rnd : NumOperand) (b : ScriptName)
  | toString (ts rnd : NumOperand) (s : ScriptName)
  | parse (text : TextOperand) (ts rnd : ScriptName)
deriving DecidableEq, Repr

end Sys2Proof
end

