-- ==== Sys2Proof/WellFormed.lean ====
section
/-! DEFINITION. Well-formedness. A request has no ill-formed case: every operand of `Instr` has exactly the width of its
wires, and R27 says "There is no illegal, reserved, hint or custom encoding of the request". What can be ill-formed is a
script: a literal too wide for its operand (R31), or a name used before a line binds it, or a name of the wrong kind. -/

namespace Sys2Proof

/-- R27: every request with its operands is well formed. -/
def Instr.wf : Instr → Bool
  | .pack _ _ => true
  | .unpack _ => true
  | .encode _ => true
  | .decode _ _ => true

/-- What a name of a script is bound to: a 64-bit field, a 128-bit field, or 26 cells (R26, R31). -/
inductive Kind where
  | num64 | num128 | text
deriving DecidableEq, Repr

/-- The kinds of the names bound so far, the latest first. -/
abbrev KindEnv := List (ScriptName × Kind)

/-- Does a kind fit a numeric operand of `w` wires? A narrower field is zero-extended; a wider one does not fit
(DESIGN CHOICE, assumption log 8). -/
def Kind.fits (w : Nat) : Kind → Bool
  | .num64 => 64 ≤ w
  | .num128 => 128 ≤ w
  | .text => false

/-- R31: a literal "too wide for the operand is an error of the script"; a name must be bound by an earlier line. -/
def NumOperand.wf (Γ : KindEnv) (w : Nat) : NumOperand → Bool
  | .lit n => n < 2 ^ w
  | .ref x => match Γ.lookup x with
    | some k => k.fits w
    | none => false

/-- R31: a text literal of any length will do; a name must be bound to a text. -/
def TextOperand.wf (Γ : KindEnv) : TextOperand → Bool
  | .lit _ => true
  | .ref x => match Γ.lookup x with
    | some .text => true
    | _ => false

def CoreLine.wf (Γ : KindEnv) : CoreLine → Bool
  | .pack ts rnd _ => ts.wf Γ 64 && rnd.wf Γ 128
  | .unpack b _ _ => b.wf Γ 128
  | .encode b _ => b.wf Γ 128
  | .decode t _ => t.wf Γ

/-- The names a line binds, with their kinds (R26, R31). -/
def CoreLine.binds : CoreLine → KindEnv
  | .pack _ _ b => [(b, .num128)]
  | .unpack _ ts rnd => [(rnd, .num128), (ts, .num64)]
  | .encode _ s => [(s, .text)]
  | .decode _ b => [(b, .num128)]

/-- A script of one-request lines is well formed where every line is, given what the lines before it bind. -/
def scriptWf (Γ : KindEnv) : List CoreLine → Bool
  | [] => true
  | l :: ls => l.wf Γ && scriptWf (l.binds ++ Γ) ls

end Sys2Proof
end

