-- ==== Sys2Proof/Decode.lean ====
section
/-! DEFINITION. The request word (R22, R24, R25) to an instruction and back, the response word (R23, R57) to a response
and back, and the rows of `opcode_table.json`. -/

namespace Sys2Proof

/-! ## The fields of the request word (R22) -/

/-- `op = REQ[217:216]`. -/
def reqOp (w : ReqWord) : BitVec 2 := w.extractLsb' 216 2
/-- `len = REQ[215:208]`. -/
def reqLen (w : ReqWord) : BitVec 8 := w.extractLsb' 208 8
/-- `din = REQ[207:0]`. -/
def reqDin (w : ReqWord) : Din := w.extractLsb' 0 208
/-- `REQ = op ‖ len ‖ din`. -/
def joinRequest (op : BitVec 2) (len : BitVec 8) (din : Din) : ReqWord := op ++ len ++ din

/-! ## The operands on `din` (R25) -/

/-- `ts_in = din[191:128]`. -/
def tsIn (din : Din) : BitVec 64 := din.extractLsb' 128 64
/-- `rnd_in = din[127:0]`. -/
def rndIn (din : Din) : BitVec 128 := din.extractLsb' 0 128
/-- `buf = din[127:0]`. -/
def bufIn (din : Din) : Buf := din.extractLsb' 0 128

/-! ## Operation codes (R24) -/

/-- The 2-bit code of an operation. -/
def opCode : Operation → BitVec 2
  | .pack => 0b00#2
  | .unpack => 0b01#2
  | .encode => 0b10#2
  | .decode => 0b11#2

/-- "all four codes are used, so no value of `op` is illegal": the last case is the code 11. -/
def operationOf (op : BitVec 2) : Operation :=
  if op = 0b00#2 then .pack
  else if op = 0b01#2 then .unpack
  else if op = 0b10#2 then .encode
  else .decode

/-! ## Decoding and encoding requests -/

/-- R27: "A decoder of request words is total." Ignored bits are dropped here. -/
def decodeRequest (w : ReqWord) : Instr :=
  match operationOf (reqOp w) with
  | .pack => .pack (tsIn (reqDin w)) (rndIn (reqDin w))
  | .unpack => .unpack (bufIn (reqDin w))
  | .encode => .encode (bufIn (reqDin w))
  | .decode => .decode (reqLen w) (reqDin w)

/-- Why bits are no request. -/
inductive DecodeError where
  /-- A bit above bit 217 is set: there is no such wire (R22: one request length, 218 bits). -/
  | wireBeyondRequest
deriving DecidableEq, Repr

/-- Decoding of a number of any size: the 218 wires, or a rejection by name. -/
def decodeNumber (n : Nat) : Except DecodeError Instr :=
  if n < 2 ^ 218 then .ok (decodeRequest (BitVec.ofNat 218 n)) else .error .wireBeyondRequest

/-- The length field an instruction is sent with; 0 where the operation ignores it (R27). -/
def lenOf : Instr → BitVec 8
  | .pack _ _ => 0
  | .unpack _ => 0
  | .encode _ => 0
  | .decode len _ => len

/-- The operand bus an instruction is sent with; ignored bits are sent as 0. -/
def dinOf : Instr → Din
  | .pack ts rnd => (0 : BitVec 16) ++ ts ++ rnd
  | .unpack buf => (0 : BitVec 80) ++ buf
  | .encode buf => (0 : BitVec 80) ++ buf
  | .decode _ text => text

/-- The request word of an instruction. -/
def encodeRequest (i : Instr) : ReqWord := joinRequest (opCode i.operation) (lenOf i) (dinOf i)

/-- The instruction the decoder reads from a row's bits, numbered as `opcode_table.json` numbers them: there the request
is one word of 218 bits, bit 0 its least significant. Bits from `nbits` up are 0. -/
def decodeTableWord (nbits w : Nat) : Option Instr :=
  match decodeNumber (w % 2 ^ nbits) with
  | .ok i => some i
  | .error _ => none

/-! ## The rows of the operation table -/

/-- One row of `opcode_table.json`: a request word is the row's operation where its bits under the mask are the pattern. -/
structure OpRow where
  operation : Operation
  pattern : ReqWord
  mask : ReqWord
deriving DecidableEq, Repr

/-- The four rows, with `match` and `mask` as the table writes them. -/
def opcodeTable : List OpRow :=
  [ ⟨.pack,   0x0000000000000000000000000000000000000000000000000000000#218, 0x3000000000000000000000000000000000000000000000000000000#218⟩,
    ⟨.unpack, 0x1000000000000000000000000000000000000000000000000000000#218, 0x3000000000000000000000000000000000000000000000000000000#218⟩,
    ⟨.encode, 0x2000000000000000000000000000000000000000000000000000000#218, 0x3000000000000000000000000000000000000000000000000000000#218⟩,
    ⟨.decode, 0x3000000000000000000000000000000000000000000000000000000#218, 0x3000000000000000000000000000000000000000000000000000000#218⟩ ]

/-! ## The response word (R23, R57) -/

/-- The 3-bit code of a status (R57). -/
def statusCode : Status → BitVec 3
  | .ok => 0
  | .rangeError => 1
  | .invalidLengthError => 2
  | .invalidCharacterError => 3
  | .overflowError => 4

/-- The status of a code; 5, 6 and 7 are "never produced" (R57). -/
def statusOf (c : BitVec 3) : Option Status :=
  if c = 0 then some .ok
  else if c = 1 then some .rangeError
  else if c = 2 then some .invalidLengthError
  else if c = 3 then some .invalidCharacterError
  else if c = 4 then some .overflowError
  else none

/-- `RSP = status ‖ dout` (R23). -/
def responseWord (r : Response) : RspWord := statusCode r.status ++ r.dout

/-- Why bits are no response. -/
inductive ResponseError where
  /-- Status code 5, 6 or 7: never produced (R57), refused by a bit-level decoder (U9). -/
  | neverProduced (code : BitVec 3)
deriving DecidableEq, Repr

/-- The host's reading of a response word. -/
def decodeResponse (w : RspWord) : Except ResponseError Response :=
  match statusOf (w.extractLsb' 208 3) with
  | some s => .ok ⟨s, w.extractLsb' 0 208⟩
  | none => .error (.neverProduced (w.extractLsb' 208 3))

end Sys2Proof
end

