-- ==== Sys2Proof/Machine/State.lean ====
section
/-! DEFINITION. The state: what stands on the ports and in flight, and the host's record. The block keeps nothing between
two operations (`10_state.md` rule R10), so no field of this state is read by any operation. -/

namespace Sys2Proof.Machine

/-- The machine in one clock cycle. `INVENTORY.md` lists every piece of state the spec answers for. -/
structure State where
  /-- What the host drives on the input ports in the coming cycles, the next cycle first (R75, R76). -/
  ports : List PortIn
  /-- The responses in flight, the oldest first, one cell for each cycle of latency; `none` is a cycle that took no
  request. The length is `LATENCY` (R6, R75). -/
  pipe : List (Option Response)
  /-- The output ports: `none` is `rsp_valid = 0`, when `rsp_status` and `rsp_dout` are unspecified (R75). -/
  rsp : Option Response
  /-- The responses presented so far, the oldest first: the run of R78, as the host records it. -/
  log : List Response
deriving DecidableEq, Repr

/-- The parameter `LATENCY` of this machine (R6): cycles from a request to its response. -/
def State.latency (s : State) : Nat := s.pipe.length

/-- The block has no fault: no trap, hang or undefined result (`00_scope.md` section 6, R61, R65). Nobody raises one;
an error is a status in a response, and that is a next state. -/
inductive Fault where
deriving DecidableEq, Repr

/-- Reasons to refuse an instruction. -/
inductive Refusal where
  /-- The instruction has no meaning yet; raised by an arm of `exec` only (safe). No arm of this model does. -/
  | notModelled (mnemonic : String)
deriving DecidableEq, Repr

/-- Reset of a block of latency `n`: nothing in flight, `rsp_valid = 0` (R15, R71); the host has driven and recorded
nothing. -/
def State.resetWith (n : Nat) : State :=
  { ports := [], pipe := List.replicate n none, rsp := none, log := [] }

/-- The machine right after reset (R15, R71). The latency is a DESIGN CHOICE (assumption log 1). -/
def State.reset : State := State.resetWith Config.resetLatency

end Sys2Proof.Machine
end

