-- ==== Sys2Proof/Machine/Operands.lean ====
section
/-! DEFINITION. The shapes data takes inside the operations: the fields, value and bytes of a ULID (R33), the character
cells of a text (R25, R26, R42), the 5-bit groups of a value (R38, R43), and the two constant tables (R17, R18). -/

namespace Sys2Proof.Machine

/-! ## Sequences carried in a word, the first element at the top (R8) -/

/-- `c[i] = din[207-8i : 200-8i]` (R25), `s[i] = dout[207-8i : 200-8i]` (R26). -/
def cell (t : Text) (i : Nat) : Byte := t.extractLsb' (200 - 8 * i) 8

/-- The 26 cells of a text, the first character first. -/
def cells (t : Text) : List Byte := (List.range 26).map (cell t)

/-- `s[0] ‖ s[1] ‖ ...` at the bottom of a 208-bit word (R39). -/
def joinCells (cs : List Byte) : Text := cs.foldl (fun acc c => acc <<< 8 ||| c.setWidth 208) 0

/-- `g[i] = X[129-5i : 125-5i]` with `X = 00 ‖ V` (R38). -/
def group (v : Buf) (i : Nat) : Symbol := (v.setWidth 130).extractLsb' (125 - 5 * i) 5

/-- The 26 groups of a value, the most significant first. -/
def groups (v : Buf) : List Symbol := (List.range 26).map (group v)

/-- `Y = v[0] ‖ v[1] ‖ ... ‖ v[25]` (R43). -/
def joinGroups (vs : List Symbol) : BitVec 130 := vs.foldl (fun acc v => acc <<< 5 ||| v.setWidth 130) 0

/-! ## Fields, value and buffer of a ULID (R33) -/

/-- `V = timestamp ‖ randomness`. -/
def ulidValue (u : Ulid) : Buf := u.timestamp ++ u.randomness

/-- `timestamp = V[127:80]`, `randomness = V[79:0]`. -/
def ulidOf (v : Buf) : Ulid := ⟨v.extractLsb' 80 48, v.extractLsb' 0 80⟩

/-- `B[i] = V[127-8i : 120-8i]`. -/
def bufByte (v : Buf) (i : Nat) : Byte := v.extractLsb' (120 - 8 * i) 8

/-- The 16 bytes of a buffer, byte 0 first. -/
def bufBytes (v : Buf) : List Byte := (List.range 16).map (bufByte v)

/-- The order on ULIDs (R52): `ta < tb or (ta = tb and ra < rb)`. The block has no operation that computes it. -/
def ulidLt (a b : Ulid) : Prop :=
  a.timestamp < b.timestamp ∨ (a.timestamp = b.timestamp ∧ a.randomness < b.randomness)

/-! ## The constant tables -/

/-- `ENC_LUT` entry by entry: the codes of "0123456789ABCDEFGHJKMNPQRSTVWXYZ" (R17, R28). -/
def encTable : List Byte :=
  [0x30, 0x31, 0x32, 0x33, 0x34, 0x35, 0x36, 0x37] ++ [0x38, 0x39, 0x41, 0x42, 0x43, 0x44, 0x45, 0x46] ++
  [0x47, 0x48, 0x4A, 0x4B, 0x4D, 0x4E, 0x50, 0x51] ++ [0x52, 0x53, 0x54, 0x56, 0x57, 0x58, 0x59, 0x5A]

/-- `ENC_LUT[v]` (R17). The table has an entry for every 5-bit index, so the default is never read. -/
def encLut (v : Symbol) : Byte := encTable.getD v.toNat 0

/-- An entry of `DEC_LUT`: "a pair `(valid, value)` of one bit and five bits" (R18). -/
structure DecEntry where
  valid : Bool
  value : Symbol
deriving DecidableEq, Repr

/-- The 32 upper-case entries (R28). -/
def upperRows : List (Byte × Symbol) :=
  [(0x30, 0), (0x31, 1), (0x32, 2), (0x33, 3), (0x34, 4), (0x35, 5), (0x36, 6), (0x37, 7)] ++
  [(0x38, 8), (0x39, 9), (0x41, 10), (0x42, 11), (0x43, 12), (0x44, 13), (0x45, 14), (0x46, 15)] ++
  [(0x47, 16), (0x48, 17), (0x4A, 18), (0x4B, 19), (0x4D, 20), (0x4E, 21), (0x50, 22), (0x51, 23)] ++
  [(0x52, 24), (0x53, 25), (0x54, 26), (0x56, 27), (0x57, 28), (0x58, 29), (0x59, 30), (0x5A, 31)]

/-- The 22 lower-case entries (R30). -/
def lowerRows : List (Byte × Symbol) :=
  [(0x61, 10), (0x62, 11), (0x63, 12), (0x64, 13), (0x65, 14), (0x66, 15), (0x67, 16), (0x68, 17)] ++
  [(0x6A, 18), (0x6B, 19), (0x6D, 20), (0x6E, 21), (0x70, 22), (0x71, 23), (0x72, 24)] ++
  [(0x73, 25), (0x74, 26), (0x76, 27), (0x77, 28), (0x78, 29), (0x79, 30), (0x7A, 31)]

/-- `DEC_LUT[c]` (R18): the 54 accepted codes, and `(0, 0)` for the other 202. -/
def decLut (c : Byte) : DecEntry :=
  match (upperRows ++ lowerRows).lookup c with
  | some v => ⟨true, v⟩
  | none => ⟨false, 0⟩

/-- The values `v[0] .. v[25]` of the cells of a text (R44). -/
def textValues (t : Text) : List Symbol := (cells t).map fun c => (decLut c).value

/-- The upper-case twin of a lower-case letter's code, `c - 0x20` for `c` in 0x61 to 0x7A; any other code as it is
(R29, R51). -/
def upperCase (c : Byte) : Byte := if 0x61#8 ≤ c ∧ c ≤ 0x7A#8 then c - 0x20#8 else c

/-- The canonical form of a text: "the same text in upper case, and nothing else changes" (R51). -/
def canonicalText (t : Text) : Text := joinCells ((cells t).map upperCase)

end Sys2Proof.Machine
end

