-- ==== Sys2Proof/Machine/Flags.lean ====
section
/-! DEFINITION. The block has no flags (R13). The conditions that decide the status of a response are here, one for each
check of `40_bitpacker.md` and `42_base32_decoder.md`. -/

namespace Sys2Proof.Machine

/-- R58: "when `ts_in > 2^48 - 1` or `rnd_in > 2^80 - 1`". -/
def rangeViolated (ts : BitVec 64) (rnd : BitVec 128) : Bool :=
  decide (ts.toNat > 2 ^ 48 - 1) || decide (rnd.toNat > 2 ^ 80 - 1)

/-- R59, R45: `REQ.len != 26`. -/
def wrongLength (len : BitVec 8) : Bool := decide (len ≠ 26#8)

/-- R60, R46: some cell's `DEC_LUT` entry has `valid = 0`; all 26 are checked. -/
def badCharacter (t : Text) : Bool := (cells t).any fun c => !(decLut c).valid

/-- R62, R47: the value of the first character is above 7. -/
def firstAboveSeven (t : Text) : Bool := decide ((decLut (cell t 0)).value.toNat > 7)

end Sys2Proof.Machine
end

