-- ==== Sys2Proof/Machine/Ops.lean ====
section
/-! DEFINITION. The shared operations: ending an operation with a result or with an error (R9, R61), what happens in one
clock cycle at the ports and in the pipeline (R71, R75). -/

namespace Sys2Proof.Machine

/-! ## Ending an operation -/

/-- `return v` (R9): status 0 and the result on `dout`. -/
def returnValue (v : Dout) : Response := ⟨.ok, v⟩

/-- `raise <Error>` (R9, R61): the error's status and `dout = 0^208`; "It does nothing else." This is all the exception
entry the block has: no state is saved, no mode changes (R65), and there is no return from it (R66). -/
def raiseError (e : Status) : Response := ⟨e, 0⟩

/-! ## The pipeline -/

/-- One clock cycle of the pipeline: `entry` goes in (the response of the request taken in this cycle, if one was), and
what went in `LATENCY` cycles ago comes out on the ports for this one cycle (R75). With no cells the block is
combinational. -/
def clockPipe (entry : Option Response) (s : State) : State :=
  match s.pipe with
  | [] => { s with rsp := entry, log := s.log ++ entry.toList }
  | out :: rest => { s with pipe := rest ++ [entry], rsp := out, log := s.log ++ out.toList }

/-- A cycle that takes a request: its response enters the pipeline (R75, R61). -/
def answer (r : Response) (s : State) : Host.Outcome State Fault Refusal := .next (clockPipe (some r) s)

/-- A cycle that takes no request: "For each request taken, and for nothing else, the block presents one response". -/
def idleCycle (s : State) : State := clockPipe none s

/-- A cycle in which `rst` is sampled high (R71): `rsp_valid = 0`, and requests "whose responses had not yet appeared are
dropped". Nothing else changes. -/
def resetCycle (s : State) : State := { s with pipe := s.pipe.map fun _ => none, rsp := none }

/-! ## The input ports -/

/-- What a cycle's input ports ask of the block. -/
inductive PortEvent where
  /-- `rst` is sampled high. -/
  | reset
  /-- No request is presented. -/
  | idle
  /-- A request is taken. -/
  | request (w : ReqWord)
deriving DecidableEq, Repr

/-- R75, R71: a request is taken where `req_valid = 1`, unless `rst` is high; with `LATENCY = 0` `rst` is unused.
While `req_valid = 0` the other request ports are ignored. -/
def portEvent (latency : Nat) (p : PortIn) : PortEvent :=
  if p.rst = true ∧ latency ≠ 0 then .reset
  else if p.reqValid = true then .request (joinRequest p.reqOp p.reqLen p.reqDin)
  else .idle

/-- What the coming cycle's ports ask; idle where the host has planned no more (DESIGN CHOICE, assumption log 2). -/
def nextEvent (s : State) : PortEvent :=
  match s.ports with
  | [] => .idle
  | p :: _ => portEvent s.latency p

/-- The same machine once the coming cycle's port values are used up. -/
def dropPort (s : State) : State := { s with ports := s.ports.tail }

/-- The ports of a cycle in which the host presents a request (R22, R75). -/
def presentRequest (w : ReqWord) : PortIn :=
  { rst := false, reqValid := true, reqOp := reqOp w, reqLen := reqLen w, reqDin := reqDin w }

/-- The ports of a cycle in which the host presents nothing. -/
def idlePort : PortIn := { rst := false, reqValid := false, reqOp := 0, reqLen := 0, reqDin := 0 }

/-- The host plans one more cycle before all others. -/
def planFirst (p : PortIn) (s : State) : State := { s with ports := p :: s.ports }

/-- The host plans a sequence of requests, one a cycle, after what it has planned. -/
def planRequests (ws : List ReqWord) (s : State) : State := { s with ports := s.ports ++ ws.map presentRequest }

end Sys2Proof.Machine
end

