-- ==== Sys2Proof/Machine/BitPacker.lean ====
section
/-! DEFINITION. The BitPacker: `PACK` and `UNPACK` (`40_bitpacker.md`). -/

namespace Sys2Proof.Machine

/-- What `PACK` answers (R34): `V = timestamp ‖ randomness` from `ts_in[47:0]` and `rnd_in[79:0]`, zero-extended, or
`RangeError`. -/
def packResponse (ts : BitVec 64) (rnd : BitVec 128) : Response :=
  if rangeViolated ts rnd = true then raiseError .rangeError
  else returnValue ((ulidValue ⟨ts.extractLsb' 0 48, rnd.extractLsb' 0 80⟩).setWidth 208)

/-- What `UNPACK` answers (R35): `0^16 ‖ zext_64(timestamp) ‖ zext_128(randomness)`. -/
def unpackResponse (buf : Buf) : Response :=
  returnValue ((0 : BitVec 16) ++ (ulidOf buf).timestamp.setWidth 64 ++ (ulidOf buf).randomness.setWidth 128)

/-- `PACK` (R34). -/
def execPack (ts : BitVec 64) (rnd : BitVec 128) (s : State) : Host.Outcome State Fault Refusal :=
  answer (packResponse ts rnd) s

/-- `UNPACK` (R35). -/
def execUnpack (buf : Buf) (s : State) : Host.Outcome State Fault Refusal := answer (unpackResponse buf) s

end Sys2Proof.Machine
end

