-- ==== Sys2Proof/Machine/Decoder.lean ====
section
/-! DEFINITION. The base-32 Crockford decoder: `DECODE` (`42_base32_decoder.md`). -/

namespace Sys2Proof.Machine

/-- `V`, "the low 128 bits" of `Y = v[0] ‖ ... ‖ v[25]` (R43). -/
def textBuf (t : Text) : Buf := (joinGroups (textValues t)).extractLsb' 0 128

/-- What `DECODE` answers (R44): the checks of length, characters and overflow in that order (R63), then the buffer. -/
def decodeTextResponse (len : BitVec 8) (t : Text) : Response :=
  if wrongLength len = true then raiseError .invalidLengthError
  else if badCharacter t = true then raiseError .invalidCharacterError
  else if firstAboveSeven t = true then raiseError .overflowError
  else returnValue ((textBuf t).setWidth 208)

/-- `DECODE` (R44). -/
def execDecode (len : BitVec 8) (text : Text) (s : State) : Host.Outcome State Fault Refusal :=
  answer (decodeTextResponse len text) s

end Sys2Proof.Machine
end

