-- ==== Sys2Proof/Machine/Encoder.lean ====
section
/-! DEFINITION. The base-32 Crockford encoder: `ENCODE` (`41_base32_encoder.md`). -/

namespace Sys2Proof.Machine

/-- What `ENCODE` answers (R39): `s[i] = ENC_LUT[g[i]]` for the 26 groups, the first character at the top. -/
def encodeResponse (buf : Buf) : Response := returnValue (joinCells ((groups buf).map encLut))

/-- `ENCODE` (R39). -/
def execEncode (buf : Buf) (s : State) : Host.Outcome State Fault Refusal := answer (encodeResponse buf) s

end Sys2Proof.Machine
end

