-- ==== Sys2Proof/Machine/Dispatch.lean ====
section
/-! DEFINITION. One arm per operation (R24). -/

namespace Sys2Proof.Machine

def exec (i : Instr) (s : State) : Host.Outcome State Fault Refusal :=
  match i with
  | .pack ts rnd => Sys2Proof.Machine.execPack ts rnd s
  | .unpack buf => Sys2Proof.Machine.execUnpack buf s
  | .encode buf => Sys2Proof.Machine.execEncode buf s
  | .decode len text => Sys2Proof.Machine.execDecode len text s

end Sys2Proof.Machine
end

