-- ==== Sys2Proof/Machine/Step.lean ====
section
/-! DEFINITION. One clock cycle of the block (R71, R75). -/

namespace Sys2Proof.Machine

/-- One clock cycle: sample the input ports, then reset, stay idle, or take the request and answer it. -/
def step (s : State) : Host.Outcome State Fault Refusal :=
  match nextEvent s with
  | .reset => .next (resetCycle (dropPort s))
  | .idle => .next (idleCycle (dropPort s))
  | .request w => exec (decodeRequest w) (dropPort s)

/-- The host presents the request of these bits in the coming cycle, before all it had planned. Bits from `nbits` up are
0, and the ports carry 218 wires. -/
def State.withFetchWord (s : State) (nbits w : Nat) : State :=
  planFirst (presentRequest (BitVec.ofNat 218 (w % 2 ^ nbits))) s

end Sys2Proof.Machine
end

