-- ==== Sys2Proof/Machine/Transact.lean ====
section
/-! DEFINITION. The block as a function from a request to a response (R10): "A model is therefore a total function
`step : REQ -> RSP`". The clocked machine of `Step.lean` is this function behind ports and a pipeline. -/

namespace Sys2Proof.Machine

/-- What the block answers to a request with its operands. -/
def respond : Instr → Response
  | .pack ts rnd => packResponse ts rnd
  | .unpack buf => unpackResponse buf
  | .encode buf => encodeResponse buf
  | .decode len text => decodeTextResponse len text

/-- What the block answers to a request word. -/
def transact (w : ReqWord) : Response := respond (decodeRequest w)

/-- The function of R10, word to word. -/
def transactWord (w : ReqWord) : RspWord := responseWord (transact w)

end Sys2Proof.Machine
end

