-- ==== Sys2Proof/Machine/Script.lean ====
section
/-! DEFINITION. Scripts and pseudo-operations (R31, R32) and the end of a script's run (R78): the host's notation for a
sequence of requests in which later operands come from earlier responses, and which stops at the first error. -/

namespace Sys2Proof.Machine

/-- What a name is bound to: an unsigned number, or 26 cells (R26, R31). -/
inductive ScriptValue where
  | num (n : Nat)
  | text (t : Text)
deriving DecidableEq, Repr

/-- The bindings, the latest first. -/
abbrev ScriptEnv := List (ScriptName × ScriptValue)

/-- A numeric operand of `w` wires: zero-extended; too wide, unbound or a text is an error of the script (R31;
assumption log 8). -/
def numOperand (ρ : ScriptEnv) (w : Nat) (o : NumOperand) : Option (BitVec w) :=
  match o with
  | .lit n => if n < 2 ^ w then some (BitVec.ofNat w n) else none
  | .ref x => match ρ.lookup x with
    | some (.num n) => if n < 2 ^ w then some (BitVec.ofNat w n) else none
    | some (.text _) => none
    | none => none

/-- R31: "`len` is the number of characters between the quotes, saturated at 255". -/
def literalLen (codes : List Byte) : BitVec 8 := BitVec.ofNat 8 (min codes.length 255)

/-- R31: "`c[i]` is the code of the `i`-th character for `i` below both the length and 26; cells past the end of a short
text are 0x00". -/
def literalCells (codes : List Byte) : Text := joinCells ((List.range 26).map fun i => codes.getD i 0)

/-- The operand of `DECODE`. A name bound by `ENCODE` has `len` 26 (R26). -/
def textOperand (ρ : ScriptEnv) (o : TextOperand) : Option (BitVec 8 × Text) :=
  match o with
  | .lit codes => some (literalLen codes, literalCells codes)
  | .ref x => match ρ.lookup x with
    | some (.text t) => some (26, t)
    | some (.num _) => none
    | none => none

/-- The request of a line (R31), or none where the line is an error of the script. -/
def lineRequest (ρ : ScriptEnv) : CoreLine → Option Instr
  | .pack ts rnd _ => do
    let t ← numOperand ρ 64 ts
    let r ← numOperand ρ 128 rnd
    return .pack t r
  | .unpack b _ _ => do
    let v ← numOperand ρ 128 b
    return .unpack v
  | .encode b _ => do
    let v ← numOperand ρ 128 b
    return .encode v
  | .decode t _ => do
    let (len, cs) ← textOperand ρ t
    return .decode len cs

/-- "The names after `->` are bound to the fields of the response that rule R26 gives the operation." -/
def bindResults (l : CoreLine) (d : Dout) (ρ : ScriptEnv) : ScriptEnv :=
  match l with
  | .pack _ _ b => (b, .num (d.extractLsb' 0 128).toNat) :: ρ
  | .unpack _ ts rnd => (rnd, .num (d.extractLsb' 0 128).toNat) :: (ts, .num (d.extractLsb' 128 64).toNat) :: ρ
  | .encode _ s => (s, .text d) :: ρ
  | .decode _ b => (b, .num (d.extractLsb' 0 128).toNat) :: ρ

/-- How a script's run ends (R31, R78). -/
inductive ScriptOutcome where
  /-- After the last line. -/
  | completed
  /-- At the first response whose status is not 0. -/
  | stopped (status : Status)
  /-- At a line that is an error of the script: the host issues no request for it. -/
  | scriptError
deriving DecidableEq, Repr

/-- A run: the requests issued, their responses, the bindings at the end, and how it ended (R78). -/
structure ScriptRun where
  requests : List ReqWord
  responses : List Response
  bindings : ScriptEnv
  outcome : ScriptOutcome
deriving DecidableEq, Repr

/-- A run with one transaction more at its front. -/
def consTransaction (w : ReqWord) (r : Response) (run : ScriptRun) : ScriptRun :=
  { run with requests := w :: run.requests, responses := r :: run.responses }

/-- "A script is run by the host, line by line"; "If a response has `status` other than 0, the script stops there" (R31). -/
def runLines (ρ : ScriptEnv) : List CoreLine → ScriptRun
  | [] => ⟨[], [], ρ, .completed⟩
  | l :: ls => match lineRequest ρ l with
    | none => ⟨[], [], ρ, .scriptError⟩
    | some i =>
      let w := encodeRequest i
      let r := transact w
      if r.status = .ok then consTransaction w r (runLines (bindResults l r.dout ρ) ls)
      else ⟨[w], [r], ρ, .stopped r.status⟩

/-- The expansions of R32. -/
def expandLine : ScriptLine → List CoreLine
  | .core l => [l]
  | .toBytes ts rnd b => [.pack ts rnd b]
  | .toString ts rnd s => [.pack ts rnd .tmp, .encode (.ref .tmp) s]
  | .parse text ts rnd => [.decode text .tmp, .unpack (.ref .tmp) ts rnd]

/-- A script's run, from no bindings. -/
def runScript (ls : List ScriptLine) : ScriptRun := runLines [] (ls.flatMap expandLine)

end Sys2Proof.Machine
end

