-- ==== Sys2Proof/Safety.lean ====
section
/-! DEFINITION. The terms claims use: what counts as an answer, a good state, and a stretch of cycles without
reset. -/

namespace Sys2Proof.Machine

/-- A response the block can give: the answer to some request word (R10). -/
def Answers (r : Response) : Prop := ∃ w : ReqWord, transact w = r

/-- The good states: whatever is in flight, on the ports or recorded is the answer to some request ("and for nothing
else", R75), and a valid response on the ports is the latest one recorded (R78). -/
structure Good (s : State) : Prop where
  inFlight : ∀ r, some r ∈ s.pipe → Answers r
  onPorts : ∀ r, s.rsp = some r → Answers r ∧ s.log.getLast? = some r
  recorded : ∀ r ∈ s.log, Answers r

/-- The requests a stretch of cycles takes, in order, where `rst` is low throughout (R75). -/
def requestsOf (ps : List PortIn) : List ReqWord :=
  (ps.filter (·.reqValid)).map fun p => joinRequest p.reqOp p.reqLen p.reqDin

/-- `rst` is low in every cycle of the stretch. -/
def NoReset (ps : List PortIn) : Prop := ∀ p ∈ ps, p.rst = false

/-- The responses presented so far and then those in flight, in order. -/
def owed (s : State) : List Response := s.log ++ s.pipe.filterMap id

/-- `k` clock cycles. -/
def cycles (k : Nat) (s : State) : Host.Outcome State Fault Refusal := Host.Core.run Sys2Proof.core k s

/-- The accepted set of `DECODE` as R49 words it: `len = 26`, every cell among the 54 codes, the first one of '0' to '7'. -/
def Accepted (len : BitVec 8) (t : Text) : Prop :=
  len = 26 ∧ (∀ i < 26, cell t i ∈ (upperRows ++ lowerRows).map Prod.fst) ∧ 0x30#8 ≤ cell t 0 ∧ cell t 0 ≤ 0x37#8

/-- A canonical text (R41): "26 characters of the upper-case alphabet with the first at most '7'". -/
def Canonical (t : Text) : Prop := (∀ i < 26, cell t i ∈ encTable) ∧ cell t 0 ≤ 0x37#8

end Sys2Proof.Machine
end

