-- ==== Sys2Proof/Certificates/Slice0/Obligations.lean ====
section
/-! DEFINITION. The statements for the provers. `OBLIGATIONS.json` gives each its rule or section. In a statement about an
operation, `clockPipe (some r) s` is the state in which the response `r` has entered the pipeline in the cycle of its
request; `PipelineShiftsOneCell` says all that does, and with `LATENCY` 0 the response is on the ports at once. -/

open Sys2Proof Sys2Proof.Machine

/-! ## The words -/

/-- R22: `REQ = op ‖ len ‖ din` with the widths and places of the table. -/
def Obligations.RequestWordIsOpLenDin : Prop :=
  (∀ (op : BitVec 2) (len : BitVec 8) (din : BitVec 208),
    (joinRequest op len din).toNat = op.toNat * 2 ^ 216 + len.toNat * 2 ^ 208 + din.toNat ∧
    reqOp (joinRequest op len din) = op ∧ reqLen (joinRequest op len din) = len ∧ reqDin (joinRequest op len din) = din) ∧
  ∀ w : BitVec 218, joinRequest (w.extractLsb' 216 2) (w.extractLsb' 208 8) (w.extractLsb' 0 208) = w

/-- Every instruction, with every operand, comes back from its request word, as a word and as a number. -/
def Obligations.EncodedRequestDecodesToItself : Prop :=
  ∀ i : Instr, i.wf = true → decodeRequest (encodeRequest i) = i ∧ decodeNumber (encodeRequest i).toNat = .ok i

/-- Every request word decodes, after the fields R25 names, to exactly one of the four operations (R24, R25, R27): no
value of `op` is illegal, and each operand is the slice the table gives it. -/
def Obligations.EveryRequestWordSelectsAnOperation : Prop :=
  ∀ w : BitVec 218,
    (w.extractLsb' 216 2 = 0b00#2 ∧ decodeRequest w = .pack (w.extractLsb' 128 64) (w.extractLsb' 0 128)) ∨
    (w.extractLsb' 216 2 = 0b01#2 ∧ decodeRequest w = .unpack (w.extractLsb' 0 128)) ∨
    (w.extractLsb' 216 2 = 0b10#2 ∧ decodeRequest w = .encode (w.extractLsb' 0 128)) ∨
    (w.extractLsb' 216 2 = 0b11#2 ∧ decodeRequest w = .decode (w.extractLsb' 208 8) (w.extractLsb' 0 208))

/-- The rows of the operation table select by mask and pattern what the decoder selects, every operation has a row, and
no two rows share a word. -/
def Obligations.TableRowsSelectWhatTheDecoderSelects : Prop :=
  (∀ w : BitVec 218, ∀ row ∈ opcodeTable, (w &&& row.mask = row.pattern ↔ (decodeRequest w).operation = row.operation)) ∧
  (∀ o : Operation, ∃ row ∈ opcodeTable, row.operation = o) ∧
  opcodeTable.Pairwise fun a b => ∀ w : BitVec 218, ¬ (w &&& a.mask = a.pattern ∧ w &&& b.mask = b.pattern)

/-- R27: the bits an operation does not read do not change the response. -/
def Obligations.IgnoredBitsDoNotChangeTheResponse : Prop :=
  (∀ (l l' : BitVec 8) (x x' : BitVec 16) (ts : BitVec 64) (rnd : BitVec 128),
    transact (joinRequest 0b00#2 l (x ++ ts ++ rnd)) = transact (joinRequest 0b00#2 l' (x' ++ ts ++ rnd))) ∧
  (∀ (l l' : BitVec 8) (x x' : BitVec 80) (b : BitVec 128),
    transact (joinRequest 0b01#2 l (x ++ b)) = transact (joinRequest 0b01#2 l' (x' ++ b)) ∧
    transact (joinRequest 0b10#2 l (x ++ b)) = transact (joinRequest 0b10#2 l' (x' ++ b))) ∧
  ∀ (l : BitVec 8) (d d' : BitVec 208), l ≠ 26#8 →
    transact (joinRequest 0b11#2 l d) = transact (joinRequest 0b11#2 l d')

/-- Request words written out from the encoding (W-1, W-3, W-4, W-7 of `95_test_vectors.md`) decode to what they stand
for. That a number with a bit above bit 217 is refused is the model's choice (DESIGN CHOICE, assumption log 10). -/
def Obligations.WrittenRequestWordsDecode : Prop :=
  decodeTableWord 224 0x0000000000001D2A6F450000000000000000123456789ABCDEF0123
    = some (.pack 0x000001D2A6F45000 0x0123456789ABCDEF0123) ∧
  decodeTableWord 224 0x1000000000000000000000001D2A6F450000123456789ABCDEF0123
    = some (.unpack 0x01D2A6F450000123456789ABCDEF0123) ∧
  decodeTableWord 224 0x2000000000000000000000001D2A6F450000123456789ABCDEF0123
    = some (.encode 0x01D2A6F450000123456789ABCDEF0123) ∧
  decodeTableWord 224 0x3193030303030303030303030303030303030303030303030303000
    = some (.decode 25 0x3030303030303030303030303030303030303030303030303000) ∧
  decodeTableWord 224 (2 ^ 218) = none

/-- R23, R57: `RSP = status ‖ dout` with the codes of the table; the host reads a response back from its word, and the
codes 5, 6 and 7 stand for no response. -/
def Obligations.ResponseWordReadsBack : Prop :=
  (∀ r : Response, decodeResponse (responseWord r) = .ok r ∧
    (responseWord r).toNat = (statusCode r.status).toNat * 2 ^ 208 + r.dout.toNat) ∧
  (statusCode .ok = 0 ∧ statusCode .rangeError = 1 ∧ statusCode .invalidLengthError = 2 ∧
    statusCode .invalidCharacterError = 3 ∧ statusCode .overflowError = 4) ∧
  (∀ w : BitVec 211, 4 < (w.extractLsb' 208 3).toNat → decodeResponse w = .error (.neverProduced (w.extractLsb' 208 3))) ∧
  ∀ w : BitVec 218, ((transactWord w).extractLsb' 208 3).toNat ≤ 4

/-! ## The tables -/

/-- The closed form R17 gives `ENC_LUT`, and that it is strictly increasing, which R17 marks as derived from the character
codes of R29 (general knowledge, assumption log 9). -/
def Obligations.EncoderTableIsTheAlphabetInCodeOrder : Prop :=
  (∀ v : BitVec 5, (encLut v).toNat =
    if v.toNat ≤ 9 then 0x30 + v.toNat
    else if v.toNat ≤ 17 then 0x41 + (v.toNat - 10)
    else if v.toNat ≤ 19 then 0x4A + (v.toNat - 18)
    else if v.toNat ≤ 21 then 0x4D + (v.toNat - 20)
    else if v.toNat ≤ 26 then 0x50 + (v.toNat - 22)
    else 0x56 + (v.toNat - 27)) ∧
  ∀ v w : BitVec 5, v < w → encLut v < encLut w

/-- R18, R30: `DEC_LUT` inverts `ENC_LUT`, takes a lower-case letter as its upper-case twin, has 54 valid entries and
gives `(0, 0)` for the others, among them both cases of `I`, `L`, `O`, `U`, the hyphen, the space and every code from
0x80 up. -/
def Obligations.DecoderTableInvertsTheEncoderTable : Prop :=
  (∀ v : BitVec 5, decLut (encLut v) = ⟨true, v⟩) ∧
  (∀ c : BitVec 8, 0x61#8 ≤ c → c ≤ 0x7A#8 → decLut c = decLut (c - 0x20#8)) ∧
  (∀ c : BitVec 8, (∀ v, encLut v ≠ c) → ¬ (0x61#8 ≤ c ∧ c ≤ 0x7A#8) → decLut c = ⟨false, 0⟩) ∧
  (∀ c : BitVec 8, (decLut c).valid = false → decLut c = ⟨false, 0⟩) ∧
  ((List.range 256).filter fun n => (decLut (BitVec.ofNat 8 n)).valid).length = 54 ∧
  (∀ c ∈ [0x49#8, 0x4C#8, 0x4F#8, 0x55#8, 0x69#8, 0x6C#8, 0x6F#8, 0x75#8, 0x2D#8, 0x20#8], (decLut c).valid = false) ∧
  ∀ c : BitVec 8, (c < 0x20#8 ∨ 0x80#8 ≤ c) → (decLut c).valid = false

/-! ## PACK and UNPACK -/

/-- R33: value, fields and bytes of a ULID. -/
def Obligations.ValueFieldsAndBytesAgree : Prop :=
  (∀ u : Ulid, (ulidValue u).toNat = u.timestamp.toNat * 2 ^ 80 + u.randomness.toNat ∧ ulidOf (ulidValue u) = u) ∧
  (∀ v : BitVec 128, ulidValue (ulidOf v) = v ∧
    (bufBytes v).length = 16 ∧ (bufBytes v).foldl (fun n b => n * 256 + b.toNat) 0 = v.toNat) ∧
  ∀ u : Ulid,
    (∀ i < 6, bufByte (ulidValue u) i = u.timestamp.extractLsb' (40 - 8 * i) 8) ∧
    ∀ i < 10, bufByte (ulidValue u) (6 + i) = u.randomness.extractLsb' (72 - 8 * i) 8

/-- R34: `PACK`, from the request word to the response, for every operand. In range it completes with the buffer;
out of range on either operand it answers `RangeError` and nothing else. -/
def Obligations.PackAnswersTheBufferOrRangeError : Prop :=
  (∀ w : BitVec 218, w.extractLsb' 216 2 = 0b00#2 →
    decodeRequest w = .pack (w.extractLsb' 128 64) (w.extractLsb' 0 128)) ∧
  (∀ (ts : BitVec 64) (rnd : BitVec 128) (s : State), ts.toNat ≤ 2 ^ 48 - 1 → rnd.toNat ≤ 2 ^ 80 - 1 →
    ∃ d : BitVec 208, exec (.pack ts rnd) s = .next (clockPipe (some ⟨.ok, d⟩) s) ∧
      d.toNat = ts.toNat * 2 ^ 80 + rnd.toNat ∧
      d.extractLsb' 80 48 = ts.extractLsb' 0 48 ∧ d.extractLsb' 0 80 = rnd.extractLsb' 0 80 ∧ d.extractLsb' 128 80 = 0) ∧
  ∀ (ts : BitVec 64) (rnd : BitVec 128) (s : State), ts.toNat > 2 ^ 48 - 1 ∨ rnd.toNat > 2 ^ 80 - 1 →
    exec (.pack ts rnd) s = .next (clockPipe (some ⟨.rangeError, 0⟩) s)

/-- R35: `UNPACK`, from the request word to the response, for every buffer. -/
def Obligations.UnpackAnswersTheFields : Prop :=
  (∀ w : BitVec 218, w.extractLsb' 216 2 = 0b01#2 → decodeRequest w = .unpack (w.extractLsb' 0 128)) ∧
  ∀ (buf : BitVec 128) (s : State),
    ∃ d : BitVec 208, exec (.unpack buf) s = .next (clockPipe (some ⟨.ok, d⟩) s) ∧
      d.extractLsb' 192 16 = 0 ∧ d.extractLsb' 176 16 = 0 ∧ d.extractLsb' 128 48 = buf.extractLsb' 80 48 ∧
      d.extractLsb' 80 48 = 0 ∧ d.extractLsb' 0 80 = buf.extractLsb' 0 80

/-- The inference R37 marks as derived from R34 and R35: `UNPACK`'s response has the named bits 0, so that `PACK` accepts it when it is wired to the operand bus, and
gives the buffer back. -/
def Obligations.UnpackResultIsAlwaysInRange : Prop :=
  ∀ (l l' : BitVec 8) (d : BitVec 208),
    ((transact (joinRequest 0b01#2 l d)).dout).extractLsb' 176 16 = 0 ∧
    ((transact (joinRequest 0b01#2 l d)).dout).extractLsb' 80 48 = 0 ∧
    transact (joinRequest 0b00#2 l' (transact (joinRequest 0b01#2 l d)).dout) = ⟨.ok, (d.extractLsb' 0 128).setWidth 208⟩

/-- R50: the two round trips of the BitPacker. -/
def Obligations.PackAndUnpackAreInverse : Prop :=
  (∀ (t : BitVec 64) (r : BitVec 128), t.toNat < 2 ^ 48 → r.toNat < 2 ^ 80 →
    ∃ b : BitVec 128, respond (.pack t r) = ⟨.ok, b.setWidth 208⟩ ∧
      respond (.unpack b) = ⟨.ok, (0 : BitVec 16) ++ t ++ r⟩) ∧
  ∀ b : BitVec 128, ∃ (t : BitVec 64) (r : BitVec 128), t.toNat < 2 ^ 48 ∧ r.toNat < 2 ^ 80 ∧
    respond (.unpack b) = ⟨.ok, (0 : BitVec 16) ++ t ++ r⟩ ∧ respond (.pack t r) = ⟨.ok, b.setWidth 208⟩

/-! ## ENCODE -/

/-- R38: the 26 groups of a value; the first holds the two padding zeros and the top three bits. -/
def Obligations.GroupsCutTheValueInFives : Prop :=
  (∀ (v : BitVec 128) (i : Nat), i < 26 → (group v i).toNat = (v.toNat >>> (5 * (25 - i))) % 32) ∧
  (∀ v : BitVec 128, (group v 0).toNat ≤ 7 ∧ group v 0 = (0 : BitVec 2) ++ v.extractLsb' 125 3) ∧
  ∀ (v : BitVec 128) (i : Nat), 1 ≤ i → i < 26 → group v i = v.extractLsb' (125 - 5 * i) 5

/-- No character mixes bits of the two fields: groups 0 to 9 spell `00 ‖ timestamp`, groups 10 to 25 the randomness. This
is the inference R38 marks as derived ("so no character mixes bits of the two fields"). -/
def Obligations.NoCharacterMixesTheTwoFields : Prop :=
  ∀ u : Ulid,
    (∀ i < 10, group (ulidValue u) i = ((0 : BitVec 2) ++ u.timestamp).extractLsb' (45 - 5 * i) 5) ∧
    ∀ i < 16, group (ulidValue u) (10 + i) = u.randomness.extractLsb' (75 - 5 * i) 5

/-- R39: `ENCODE`, from the request word to the response, for every buffer. -/
def Obligations.EncodeAnswersTheText : Prop :=
  (∀ w : BitVec 218, w.extractLsb' 216 2 = 0b10#2 → decodeRequest w = .encode (w.extractLsb' 0 128)) ∧
  ∀ (buf : BitVec 128) (s : State),
    ∃ d : BitVec 208, exec (.encode buf) s = .next (clockPipe (some ⟨.ok, d⟩) s) ∧
      ∀ i < 26, d.extractLsb' (200 - 8 * i) 8 = encLut ((buf.setWidth 130).extractLsb' (125 - 5 * i) 5)

/-- Two buffers give two texts, and no buffer gives a text whose first character is '8' or later: the inference R40 marks
as derived. -/
def Obligations.EncoderIsInjectiveAndNotOnto : Prop :=
  (∀ a b : BitVec 128, a ≠ b → (respond (.encode a)).dout ≠ (respond (.encode b)).dout) ∧
  ∀ t : BitVec 208, 0x38#8 ≤ cell t 0 → ∀ b : BitVec 128, (respond (.encode b)).dout ≠ t

/-- R41: what `ENCODE` produces is canonical: 26 cells of the 32 upper-case codes, the first at most '7'. -/
def Obligations.EncoderOutputIsCanonical : Prop :=
  ∀ b : BitVec 128, Canonical (respond (.encode b)).dout

/-! ## DECODE -/

/-- R44: `DECODE`, from the request word to the response, for every length and every text: the three checks in their order,
then the buffer `v[0][2:0] ‖ v[1] ‖ ... ‖ v[25]`. -/
def Obligations.DecodeAnswersTheBufferOrTheFirstError : Prop :=
  (∀ w : BitVec 218, w.extractLsb' 216 2 = 0b11#2 → decodeRequest w = .decode (w.extractLsb' 208 8) (w.extractLsb' 0 208)) ∧
  ∀ (len : BitVec 8) (t : BitVec 208) (s : State),
    (len ≠ 26#8 → exec (.decode len t) s = .next (clockPipe (some ⟨.invalidLengthError, 0⟩) s)) ∧
    (len = 26#8 → (∃ i < 26, (decLut (cell t i)).valid = false) →
      exec (.decode len t) s = .next (clockPipe (some ⟨.invalidCharacterError, 0⟩) s)) ∧
    (len = 26#8 → (∀ i < 26, (decLut (cell t i)).valid = true) → (decLut (cell t 0)).value.toNat > 7 →
      exec (.decode len t) s = .next (clockPipe (some ⟨.overflowError, 0⟩) s)) ∧
    (len = 26#8 → (∀ i < 26, (decLut (cell t i)).valid = true) → (decLut (cell t 0)).value.toNat ≤ 7 →
      ∃ d : BitVec 208, exec (.decode len t) s = .next (clockPipe (some ⟨.ok, d⟩) s) ∧
        d.extractLsb' 128 80 = 0 ∧ d.extractLsb' 125 3 = (decLut (cell t 0)).value.extractLsb' 0 3 ∧
        ∀ i, 1 ≤ i → i < 26 → d.extractLsb' (125 - 5 * i) 5 = (decLut (cell t i)).value)

/-- The buffer of an accepted text is the number it spells in base 32, which R43 marks as derived from R38 and the round
trip. -/
def Obligations.DecodedValueIsTheNumberSpelled : Prop :=
  ∀ (len : BitVec 8) (t : BitVec 208), Accepted len t →
    (respond (.decode len t)).status = .ok ∧
    (respond (.decode len t)).dout.toNat = ∑ i ∈ Finset.range 26, (decLut (cell t i)).value.toNat * 32 ^ (25 - i)

/-- R63: one operation reports one status, that of the first check to fail: for `DECODE` length, then all characters, then
overflow; for `PACK` a single `RangeError` whichever bound is violated, or both. -/
def Obligations.ChecksAreMadeInOrder : Prop :=
  (∀ (len : BitVec 8) (t : BitVec 208),
    (len ≠ 26#8 → (respond (.decode len t)).status = .invalidLengthError) ∧
    (len = 26#8 → (∃ i < 26, (decLut (cell t i)).valid = false) →
      (respond (.decode len t)).status = .invalidCharacterError) ∧
    (len = 26#8 → (∀ i < 26, (decLut (cell t i)).valid = true) → (decLut (cell t 0)).value.toNat > 7 →
      (respond (.decode len t)).status = .overflowError) ∧
    (len = 26#8 → (∀ i < 26, (decLut (cell t i)).valid = true) → (decLut (cell t 0)).value.toNat ≤ 7 →
      (respond (.decode len t)).status = .ok)) ∧
  ∀ (ts : BitVec 64) (rnd : BitVec 128), (respond (.pack ts rnd)).status =
    if ts.toNat > 2 ^ 48 - 1 ∨ rnd.toNat > 2 ^ 80 - 1 then .rangeError else .ok

/-- R45: a text of any length but 26 is refused whatever its cells hold. -/
def Obligations.DecodeRefusesEveryLengthBut26 : Prop :=
  ∀ (len : BitVec 8) (t : BitVec 208) (s : State), len ≠ 26#8 →
    exec (.decode len t) s = .next (clockPipe (some ⟨.invalidLengthError, 0⟩) s)

/-- R46: one cell outside the 32 upper-case and 22 lower-case codes, anywhere, is enough, and where there is none the
error is not raised. -/
def Obligations.DecodeRefusesACharacterOutsideTheAlphabet : Prop :=
  ∀ t : BitVec 208,
    ((∃ i < 26, cell t i ∉ (upperRows ++ lowerRows).map Prod.fst) →
      ∀ s : State, exec (.decode 26 t) s = .next (clockPipe (some ⟨.invalidCharacterError, 0⟩) s)) ∧
    ((∀ i < 26, cell t i ∈ (upperRows ++ lowerRows).map Prod.fst) →
      (respond (.decode 26 t)).status ≠ .invalidCharacterError)

/-- R47: a text of valid characters is refused for overflow exactly when its first value is above 7, that is when one of
that value's two high bits is set, that is when the 130-bit number it spells exceeds 2^128 - 1. -/
def Obligations.DecodeRefusesAValueAbove128Bits : Prop :=
  ∀ t : BitVec 208, (∀ i < 26, cell t i ∈ (upperRows ++ lowerRows).map Prod.fst) →
    ((decLut (cell t 0)).value.toNat > 7 ↔ (decLut (cell t 0)).value.extractLsb' 3 2 ≠ 0) ∧
    ((decLut (cell t 0)).value.toNat > 7 ↔
      (∑ i ∈ Finset.range 26, (decLut (cell t i)).value.toNat * 32 ^ (25 - i)) > 2 ^ 128 - 1) ∧
    ((decLut (cell t 0)).value.toNat > 7 → ∀ s : State,
      exec (.decode 26 t) s = .next (clockPipe (some ⟨.overflowError, 0⟩) s)) ∧
    ((decLut (cell t 0)).value.toNat ≤ 7 → (respond (.decode 26 t)).status = .ok)

/-- `DECODE` succeeds exactly on the accepted set, the inference R49 marks as derived from R44 to R47. -/
def Obligations.DecodeAcceptsExactlyTheAcceptedSet : Prop :=
  ∀ (len : BitVec 8) (t : BitVec 208), (respond (.decode len t)).status = .ok ↔
    len = 26#8 ∧ (∀ i < 26, cell t i ∈ (upperRows ++ lowerRows).map Prod.fst) ∧ 0x30#8 ≤ cell t 0 ∧ cell t 0 ≤ 0x37#8

/-- There are `8 * 54^25` accepted texts, a count R49 marks as derived. -/
def Obligations.AcceptedTextsAreCounted : Prop :=
  Nat.card (Subtype (Accepted 26#8)) = 8 * 54 ^ 25

/-- R30: upper and lower case may be mixed freely: the upper-case form of a text gets the same response. -/
def Obligations.DecodeDoesNotSeeCase : Prop :=
  ∀ (len : BitVec 8) (t : BitVec 208), respond (.decode len (canonicalText t)) = respond (.decode len t)

/-! ## Errors -/

/-- R58: which requests are answered `RangeError`; the response records nothing, and later requests are served as ever. -/
def Obligations.RangeErrorExactlyWhenPackIsOutOfRange : Prop :=
  (∀ w : BitVec 218,
    ((transact w).status = .rangeError ↔ w.extractLsb' 216 2 = 0b00#2 ∧
      ((w.extractLsb' 128 64).toNat > 2 ^ 48 - 1 ∨ (w.extractLsb' 0 128).toNat > 2 ^ 80 - 1)) ∧
    ((transact w).status = .rangeError → (transact w).dout = 0)) ∧
  ∀ (i : Instr) (s : State), exec i (clockPipe (some ⟨.rangeError, 0⟩) s)
    = .next (clockPipe (some (respond i)) (clockPipe (some ⟨.rangeError, 0⟩) s))

/-- R59, R60, R62: which requests are answered with each of `DECODE`'s errors; the response records nothing. -/
def Obligations.DecodeErrorsExactlyWhenTheirCauseHolds : Prop :=
  ∀ w : BitVec 218,
    ((transact w).status = .invalidLengthError ↔ w.extractLsb' 216 2 = 0b11#2 ∧ w.extractLsb' 208 8 ≠ 26#8) ∧
    ((transact w).status = .invalidCharacterError ↔ w.extractLsb' 216 2 = 0b11#2 ∧ w.extractLsb' 208 8 = 26#8 ∧
      ∃ i < 26, (decLut (w.extractLsb' (200 - 8 * i) 8)).valid = false) ∧
    ((transact w).status = .overflowError ↔ w.extractLsb' 216 2 = 0b11#2 ∧ w.extractLsb' 208 8 = 26#8 ∧
      (∀ i < 26, (decLut (w.extractLsb' (200 - 8 * i) 8)).valid = true) ∧
      (decLut (w.extractLsb' 200 8)).value.toNat > 7) ∧
    ((transact w).status ≠ .ok → (transact w).dout = 0)

/-- R57, R61: each operation gives only its own statuses, an error carries nothing on `dout`, and after it every request
is answered as if the failed one had never been made. -/
def Obligations.FailuresCarryNothingAndLeaveNothing : Prop :=
  ∀ w : BitVec 218,
    ((transact w).status ≠ .ok → (transact w).dout = 0) ∧
    (w.extractLsb' 216 2 = 0b00#2 → (transact w).status = .ok ∨ (transact w).status = .rangeError) ∧
    (w.extractLsb' 216 2 = 0b01#2 ∨ w.extractLsb' 216 2 = 0b10#2 → (transact w).status = .ok) ∧
    (w.extractLsb' 216 2 = 0b11#2 → (transact w).status ≠ .rangeError) ∧
    ∀ (s t : State) (i : Instr), exec (decodeRequest w) s = .next t →
      exec i t = .next (clockPipe (some (respond i)) t)

/-! ## The laws that tie the operations together -/

/-- R51: the two round trips of the codec. `DECODE` of an encoded buffer gives it back; `ENCODE` of a decoded text gives
the same text with its lower-case letters in upper case, which is the text itself where it was canonical. -/
def Obligations.CodecRoundTrips : Prop :=
  (∀ b : BitVec 128, respond (.decode 26 (respond (.encode b)).dout) = ⟨.ok, b.setWidth 208⟩) ∧
  (∀ (len : BitVec 8) (t d : BitVec 208), respond (.decode len t) = ⟨.ok, d⟩ →
    (respond (.encode (d.extractLsb' 0 128))).status = .ok ∧
    ∀ i < 26, cell (respond (.encode (d.extractLsb' 0 128))).dout i =
      if 0x61#8 ≤ cell t i ∧ cell t i ≤ 0x7A#8 then cell t i - 0x20#8 else cell t i) ∧
  ∀ t : BitVec 208, Canonical t →
    ∃ b : BitVec 128, respond (.decode 26 t) = ⟨.ok, b.setWidth 208⟩ ∧ respond (.encode b) = ⟨.ok, t⟩

/-- Tuple order, value order and byte order are one order, and equality is that of the fields and of the value. R52 gives
the three lines and marks their agreement as an inference from R33. -/
def Obligations.OrderOfFieldsValueAndBytesIsOne : Prop :=
  ∀ a b : Ulid,
    (ulidLt a b ↔ ulidValue a < ulidValue b) ∧
    (ulidValue a < ulidValue b ↔ List.Lex (· < ·) (bufBytes (ulidValue a)) (bufBytes (ulidValue b))) ∧
    (a = b ↔ a.timestamp = b.timestamp ∧ a.randomness = b.randomness) ∧ (a = b ↔ ulidValue a = ulidValue b)

/-- Texts sort like the values they encode, as 208-bit words and character by character; it is a law of `ENCODE`'s
outputs only, since two accepted texts can sort against their values. R53 states the law and says that it depends on the
character codes of R29, general knowledge (PRESUMED, assumption log 9). -/
def Obligations.TextOrderIsValueOrder : Prop :=
  (∀ a b : BitVec 128,
    (a < b ↔ (respond (.encode a)).dout < (respond (.encode b)).dout) ∧
    (a < b ↔ List.Lex (· < ·) (cells (respond (.encode a)).dout) (cells (respond (.encode b)).dout))) ∧
  ∃ t u : BitVec 208, Accepted 26 t ∧ Accepted 26 u ∧ u < t ∧
    (respond (.decode 26 t)).dout < (respond (.decode 26 u)).dout

/-! ## The machine: ports, pipeline, reset -/

/-- R75: one cycle moves the pipeline by one cell: what enters stands last, what stood first is on the ports and is
recorded, and nothing else changes. -/
def Obligations.PipelineShiftsOneCell : Prop :=
  ∀ (e : Option Response) (s : State),
    s.pipe ++ [e] = (clockPipe e s).rsp :: (clockPipe e s).pipe ∧
    (clockPipe e s).log = s.log ++ (clockPipe e s).rsp.toList ∧ (clockPipe e s).ports = s.ports

/-- R10: every operation answers in one way in every state; two states cannot get different responses. -/
def Obligations.ResponseDependsOnTheRequestAlone : Prop :=
  ∀ i : Instr, ∃ r : Response, r = respond i ∧ ∀ s : State, exec i s = .next (clockPipe (some r) s)

/-- The frame of all four operations: what the host drives next, the latency, what was recorded and what was in flight
stay; only the operation's own response enters. -/
def Obligations.OperationsChangeNothingElse : Prop :=
  ∀ (i : Instr) (s t : State), exec i s = .next t →
    t.ports = s.ports ∧ t.latency = s.latency ∧ (∃ r : Response, s.pipe ++ [some r] = t.rsp :: t.pipe) ∧
    t.log = s.log ++ t.rsp.toList

/-- R75: where the coming cycle presents a request and `rst` is low (or the block is combinational), the step runs the
decoded request on the state with that cycle's port values used up. -/
def Obligations.StepRunsTheDecodedRequest : Prop :=
  ∀ (s : State) (p : PortIn) (ps : List PortIn), s.ports = p :: ps → p.reqValid = true → p.rst = false ∨ s.latency = 0 →
    step s = exec (decodeRequest (p.reqOp ++ p.reqLen ++ p.reqDin)) { s with ports := ps }

/-- R75: a cycle without a request, or past what the host planned (DESIGN CHOICE, assumption log 2), only moves the
pipeline; the other request ports are ignored. -/
def Obligations.IdleStepPresentsWhatIsDue : Prop :=
  ∀ s : State, (∀ p ∈ s.ports.head?, p.reqValid = false ∧ (p.rst = false ∨ s.latency = 0)) →
    step s = .next (clockPipe none { s with ports := s.ports.tail })

/-- R71, as assumption logs 6 and 7 read it: a reset cycle clears `rsp_valid`, drops what is in flight, takes no request
and changes nothing else; no response appears in the `LATENCY` cycles after it, whatever the host drives; with
`LATENCY` 0 `rst` is not looked at. -/
def Obligations.ResetDropsWhatIsInFlight : Prop :=
  (∀ (s : State) (p : PortIn) (ps : List PortIn), s.ports = p :: ps → p.rst = true → s.latency ≠ 0 →
    step s = .next { ports := ps, pipe := List.replicate s.latency none, rsp := none, log := s.log } ∧
    ∀ k ≤ s.latency, ∃ t, cycles (k + 1) s = .next t ∧ t.rsp = none ∧ t.log = s.log) ∧
  ∀ (s : State) (p : PortIn) (ps : List PortIn), s.ports = p :: ps → s.latency = 0 →
    step s = step { s with ports := { p with rst := false } :: ps }

/-- R15, R71: after reset nothing is in flight and `rsp_valid = 0`, for every latency. -/
def Obligations.ResetStateHoldsNothing : Prop :=
  (∀ n : Nat, (State.resetWith n).rsp = none ∧ (State.resetWith n).latency = n ∧ ∀ e ∈ (State.resetWith n).pipe, e = none) ∧
  ∃ n : Nat, State.reset = State.resetWith n

/-- R74: the block cannot hang, stall or stop: any number of cycles from any state answers a next state. -/
def Obligations.EveryRunGoesOn : Prop :=
  ∀ (k : Nat) (s : State), ∃ t, cycles k s = .next t ∧ t.latency = s.latency ∧ t.ports = s.ports.drop k

/-- R75: a request taken is answered exactly `LATENCY` cycles later, for every latency, whatever else the host drives
in between, as long as it does not reset the block. -/
def Obligations.ResponseComesLatencyCyclesLater : Prop :=
  ∀ (s : State) (p : PortIn) (ps : List PortIn), s.ports = p :: ps → p.reqValid = true →
    NoReset (s.ports.take (s.latency + 1)) →
    ∃ t, cycles (s.latency + 1) s = .next t ∧
      t.rsp = some (transact (p.reqOp ++ p.reqLen ++ p.reqDin))

/-- R75, R21: over any stretch of cycles without reset, responses come in the order of their requests, one for each and
for nothing else: what was presented and is in flight afterwards is what was before, then the answers to the requests
taken. -/
def Obligations.ResponsesComeInRequestOrder : Prop :=
  ∀ (k : Nat) (s : State), NoReset (s.ports.take k) →
    ∃ t, cycles k s = .next t ∧ owed t = owed s ++ (requestsOf (s.ports.take k)).map transact

/-- R10, R75, R78: the clocked machine is the function from requests to responses: for every latency, every sequence of
requests is answered by the sequence of its responses. -/
def Obligations.ClockedMachineRefinesTheFunction : Prop :=
  ∀ (n : Nat) (ws : List (BitVec 218)),
    ∃ t, cycles (ws.length + n) (planRequests ws (State.resetWith n)) = .next t ∧ t.log = ws.map transact

/-- Every step keeps the good states: whatever is in flight, presented or recorded is the answer to some request. -/
def Obligations.StepKeepsOnlyTrueAnswers : Prop :=
  ∀ s t : State, Good s → step s = .next t → Good t

/-- The states after reset, of every latency, are good. -/
def Obligations.ResetIsGood : Prop :=
  Good State.reset ∧ ∀ n : Nat, Good (State.resetWith n)

/-! ## Scripts -/

/-- The composition R54 marks as derived from R50 and R51: parsing what `TOSTRING` gives returns the fields; printing what `PARSE` gives returns the canonical text. -/
def Obligations.ToStringAndParseAreInverse : Prop :=
  (∀ (t r : Nat) (s x y : ScriptName), t < 2 ^ 48 → r < 2 ^ 80 → x ≠ y →
    let run := runScript [.toString (.lit t) (.lit r) s, .parse (.ref s) x y]
    run.outcome = .completed ∧ run.bindings.lookup x = some (.num t) ∧ run.bindings.lookup y = some (.num r)) ∧
  ∀ (codes : List (BitVec 8)) (s x y : ScriptName), Accepted (literalLen codes) (literalCells codes) → x ≠ y →
    let run := runScript [.parse (.lit codes) x y, .toString (.ref x) (.ref y) s]
    run.outcome = .completed ∧ run.bindings.lookup s = some (.text (canonicalText (literalCells codes)))

/-- R31: a script issues its requests in order, gets the block's response to each, and stops at the first whose status is
not 0, which is then its outcome. -/
def Obligations.ScriptStopsAtTheFirstError : Prop :=
  ∀ ls : List ScriptLine,
    (runScript ls).responses = (runScript ls).requests.map transact ∧
    (∀ r ∈ (runScript ls).responses.dropLast, r.status = .ok) ∧
    ((runScript ls).outcome = .completed → ∀ r ∈ (runScript ls).responses, r.status = .ok) ∧
    ∀ e, (runScript ls).outcome = .stopped e →
      e ≠ .ok ∧ ∃ r, (runScript ls).responses.getLast? = some r ∧ r.status = e

/-- A well-formed script never ends in an error of the script (assumption log 8 says what the model takes as one). -/
def Obligations.WellFormedScriptsRaiseNoScriptError : Prop :=
  ∀ ls : List ScriptLine, scriptWf [] (ls.flatMap expandLine) = true → (runScript ls).outcome ≠ .scriptError

/-- R31, R78: the requests of a script, driven on the ports of a block of any latency, are answered with the responses of
the script's run. Two things here are the model's choice: the `n` cycles past the plan are idle (DESIGN CHOICE, assumption
log 2), and a script and its run have the form of assumption log 8 (DESIGN CHOICE). -/
def Obligations.PortsGiveAScriptItsResponses : Prop :=
  ∀ (n : Nat) (ls : List ScriptLine),
    ∃ t, cycles ((runScript ls).requests.length + n) (planRequests (runScript ls).requests (State.resetWith n)) = .next t ∧
      t.log = (runScript ls).responses
end

