-- ==== Sys2Proof/Laws/Horner.lean ====
section
/-! SUPPORT. Digit lists, the most significant digit first, and the numbers they spell: what the character cells, the 5-bit
groups and the bytes of the block all are. -/

namespace Sys2Proof.Laws

/-- The number a list of digits spells in base `b`, the most significant first. -/
def horner (b : Nat) (ds : List Nat) : Nat := ds.foldl (fun n d => n * b + d) 0

theorem foldl_horner (b : Nat) (ds : List Nat) (n : Nat) :
    ds.foldl (fun n d => n * b + d) n = n * b ^ ds.length + horner b ds := by
  induction ds generalizing n with
  | nil => simp [horner]
  | cons d ds ih =>
    simp only [horner, List.foldl_cons, List.length_cons, Nat.zero_mul, Nat.zero_add]
    rw [ih, ih d, Nat.pow_succ]
    ring

theorem horner_nil (b : Nat) : horner b [] = 0 := rfl

theorem horner_cons (b d : Nat) (ds : List Nat) : horner b (d :: ds) = d * b ^ ds.length + horner b ds := by
  simp only [horner, List.foldl_cons, Nat.zero_mul, Nat.zero_add]
  exact foldl_horner b ds d

theorem horner_lt {b : Nat} {ds : List Nat} (h : ∀ d ∈ ds, d < b) : horner b ds < b ^ ds.length := by
  induction ds with
  | nil => simp [horner]
  | cons d ds ih =>
    have hd : d + 1 ≤ b := h d (by simp)
    have ht := ih fun x hx => h x (by simp [hx])
    have := Nat.mul_le_mul_right (b ^ ds.length) hd
    rw [horner_cons, List.length_cons, Nat.pow_succ, Nat.mul_comm (b ^ ds.length) b]
    linarith [Nat.add_mul d 1 (b ^ ds.length)]

/-- The digit at position `i` of what the digits spell. -/
theorem horner_digit {b : Nat} {ds : List Nat} (h : ∀ d ∈ ds, d < b) (i : Nat) (hi : i < ds.length) :
    horner b ds / b ^ (ds.length - 1 - i) % b = ds[i] := by
  induction ds generalizing i with
  | nil => simp at hi
  | cons d ds ih =>
    have hd : d < b := h d (by simp)
    have ht := horner_lt fun x hx => h x (List.mem_cons_of_mem d hx)
    have hb : 0 < b ^ ds.length := Nat.pow_pos (by omega)
    rw [horner_cons]
    cases i with
    | zero =>
      simp only [List.length_cons, Nat.add_sub_cancel, Nat.sub_zero, List.getElem_cons_zero]
      rw [Nat.mul_comm, Nat.mul_add_div hb, Nat.div_eq_of_lt ht, Nat.add_zero, Nat.mod_eq_of_lt hd]
    | succ i =>
      have hi' : i < ds.length := by simpa using hi
      rw [List.getElem_cons_succ, ← ih (fun x hx => h x (List.mem_cons_of_mem d hx)) i hi']
      have e : (d :: ds).length - 1 - (i + 1) = ds.length - 1 - i := by simp; omega
      have p : b ^ ds.length = b ^ (ds.length - 1 - i) * (b * b ^ i) := by
        rw [← Nat.pow_succ', ← Nat.pow_add]; congr 1; omega
      rw [e, p]
      have hk : 0 < b ^ (ds.length - 1 - i) := Nat.pow_pos (by omega)
      rw [show d * (b ^ (ds.length - 1 - i) * (b * b ^ i)) = b ^ (ds.length - 1 - i) * (b * (d * b ^ i)) by ring,
        Nat.mul_add_div hk, Nat.mul_add_mod]

/-- The digits of a number spell it. -/
theorem horner_digits (b k n : Nat) :
    horner b ((List.range k).map fun i => n / b ^ (k - 1 - i) % b) = n % b ^ k := by
  induction k with
  | zero => simp [horner, Nat.mod_one]
  | succ k ih =>
    rw [List.range_succ_eq_map, List.map_cons, horner_cons, List.map_map]
    simp only [List.length_map, List.length_range, Nat.add_sub_cancel, Nat.sub_zero]
    have e : (List.range k).map ((fun i => n / b ^ (k - i) % b) ∘ Nat.succ)
        = (List.range k).map fun i => n / b ^ (k - 1 - i) % b := by
      apply List.map_congr_left
      intro i _
      simp only [Function.comp]
      congr 3; omega
    rw [e, ih, Nat.pow_succ, Nat.mod_mul, Nat.add_comm, Nat.mul_comm]

theorem lex_cons {α : Type} {r : α → α → Prop} {x y : α} {xs ys : List α} :
    List.Lex r (x :: xs) (y :: ys) ↔ r x y ∨ x = y ∧ List.Lex r xs ys := by
  constructor
  · rintro (_ | h | h)
    · exact .inl h
    · exact .inr ⟨rfl, h⟩
  · rintro (h | ⟨rfl, h⟩)
    · exact .rel h
    · exact .cons h

/-- Digit lists of one length are in dictionary order as the numbers they spell. -/
theorem horner_lt_iff_lex {b : Nat} {xs ys : List Nat} (hl : xs.length = ys.length) (hx : ∀ d ∈ xs, d < b)
    (hy : ∀ d ∈ ys, d < b) : horner b xs < horner b ys ↔ List.Lex (· < ·) xs ys := by
  induction xs generalizing ys with
  | nil =>
    cases ys with
    | nil => simp [horner]
    | cons => simp at hl
  | cons x xs ih =>
    cases ys with
    | nil => simp at hl
    | cons y ys =>
      have hl' : xs.length = ys.length := by simpa using hl
      have tx := horner_lt fun d hd => hx d (List.mem_cons_of_mem x hd)
      have ty := horner_lt fun d hd => hy d (List.mem_cons_of_mem y hd)
      have step := ih hl' (fun d hd => hx d (List.mem_cons_of_mem x hd)) (fun d hd => hy d (List.mem_cons_of_mem y hd))
      rw [horner_cons, horner_cons, hl', lex_cons, ← step]
      rw [hl'] at tx
      have less : ∀ {p q : Nat}, p < q → p * b ^ ys.length + b ^ ys.length ≤ q * b ^ ys.length := fun {p q} h => by
        have := Nat.mul_le_mul_right (b ^ ys.length) (Nat.succ_le_of_lt h)
        rwa [Nat.succ_mul] at this
      rcases Nat.lt_trichotomy x y with h | rfl | h
      · have := less h
        constructor
        · intro _; exact .inl h
        · intro _; omega
      · simp
      · have := less h
        constructor
        · intro _; omega
        · rintro (h' | ⟨rfl, _⟩) <;> omega
/-- What digits spell, as a sum of powers (R43's second form). -/
theorem horner_sum (b k : Nat) (f : Nat → Nat) :
    horner b ((List.range k).map f) = ∑ i ∈ Finset.range k, f i * b ^ (k - 1 - i) := by
  induction k generalizing f with
  | zero => simp [horner]
  | succ k ih =>
    rw [List.range_succ_eq_map, List.map_cons, horner_cons, List.map_map, ih, Finset.sum_range_succ']
    simp only [List.length_map, List.length_range, Function.comp]
    rw [Nat.add_comm]
    congr 1
    apply Finset.sum_congr rfl
    intro i _
    congr 2; omega

end Sys2Proof.Laws
end

