-- ==== Sys2Proof/Laws/Slices.lean ====
section
/-! SUPPORT. Slices of concatenated and of widened words (`00_scope.md` rule R7). -/

namespace Sys2Proof.Laws

/-- A slice that lies in the lower part of a concatenation. -/
theorem slice_append_low {m n : Nat} (a : BitVec m) (b : BitVec n) {k l : Nat} (h : k + l ≤ n) :
    (a ++ b).extractLsb' k l = b.extractLsb' k l := by
  ext i hi
  simp only [BitVec.getElem_extractLsb', BitVec.getLsbD_append]
  rw [if_pos (by omega)]

/-- A slice that lies in the upper part of a concatenation. -/
theorem slice_append_high {m n : Nat} (a : BitVec m) (b : BitVec n) {k l j : Nat} (h : k = n + j) :
    (a ++ b).extractLsb' k l = a.extractLsb' j l := by
  subst h
  ext i hi
  simp only [BitVec.getElem_extractLsb', BitVec.getLsbD_append]
  rw [if_neg (by omega)]
  congr 1; omega

/-- The slice of everything. -/
theorem slice_all {n : Nat} (a : BitVec n) : a.extractLsb' 0 n = a := by
  ext i hi; simp

/-- A slice of a slice. -/
theorem slice_slice {n : Nat} (a : BitVec n) {k l k' l' : Nat} (h : k' + l' ≤ l) :
    (a.extractLsb' k l).extractLsb' k' l' = a.extractLsb' (k + k') l' := by
  ext i hi
  simp only [BitVec.getElem_extractLsb', BitVec.getLsbD_extractLsb']
  rw [show decide (k' + i < l) = true by simpa using by omega, Bool.true_and, Nat.add_assoc]

/-- Zero-extension does not touch a slice below its width. -/
theorem slice_setWidth {n m : Nat} (a : BitVec n) {k l : Nat} (h : k + l ≤ m) :
    (a.setWidth m).extractLsb' k l = a.extractLsb' k l := by
  ext i hi
  simp only [BitVec.getElem_extractLsb', BitVec.getLsbD_setWidth]
  rw [show decide (k + i < m) = true by simpa using by omega, Bool.true_and]

/-- A slice above the top is zero. -/
theorem slice_past {n : Nat} (a : BitVec n) {k l : Nat} (h : n ≤ k) : a.extractLsb' k l = 0#l := by
  ext i hi
  simp only [BitVec.getElem_extractLsb']
  rw [BitVec.getLsbD_of_ge _ _ (by omega)]; simp

/-- A word is its two parts. -/
theorem append_eq_of_slices {m n : Nat} (w : BitVec (m + n)) : w.extractLsb' n m ++ w.extractLsb' 0 n = w := by
  ext i hi
  simp only [BitVec.getElem_append, BitVec.getElem_extractLsb', Nat.zero_add]
  split
  · rw [BitVec.getLsbD_eq_getElem]
  · rw [show n + (i - n) = i by omega, BitVec.getLsbD_eq_getElem]

/-- Concatenation as a number. -/
theorem toNat_concat {m n : Nat} (a : BitVec m) (b : BitVec n) : (a ++ b).toNat = a.toNat * 2 ^ n + b.toNat := by
  rw [BitVec.toNat_append, ← Nat.shiftLeft_add_eq_or_of_lt b.isLt, Nat.shiftLeft_eq]

end Sys2Proof.Laws
end

