-- ==== Sys2Proof/Laws/Requests.lean ====
section
/-! SUPPORT. The fields of a request word (R22), the operands on its bus (R25), and the fields of a response word (R23). -/

namespace Sys2Proof

open Sys2Proof.Laws

theorem reqOp_joinRequest (op : BitVec 2) (len : BitVec 8) (din : Din) : reqOp (joinRequest op len din) = op :=
  ((slice_append_high (op ++ len) din rfl).trans (slice_append_high op len (j := 0) rfl)).trans (slice_all op)

theorem reqLen_joinRequest (op : BitVec 2) (len : BitVec 8) (din : Din) : reqLen (joinRequest op len din) = len :=
  ((slice_append_high (op ++ len) din (j := 0) rfl).trans (slice_append_low op len (by omega))).trans (slice_all len)

theorem reqDin_joinRequest (op : BitVec 2) (len : BitVec 8) (din : Din) : reqDin (joinRequest op len din) = din :=
  (slice_append_low (op ++ len) din (by omega)).trans (slice_all din)

/-- A request word is its three fields. -/
theorem joinRequest_fields (w : ReqWord) : joinRequest (reqOp w) (reqLen w) (reqDin w) = w := by
  have upper : reqOp w ++ reqLen w = w.extractLsb' 208 10 := by
    have h := append_eq_of_slices (m := 2) (n := 8) (w.extractLsb' 208 10)
    rw [slice_slice w (by omega), slice_slice w (by omega)] at h
    exact h
  unfold joinRequest
  rw [upper]
  exact append_eq_of_slices (m := 10) (n := 208) w

theorem tsIn_reqDin (w : ReqWord) : tsIn (reqDin w) = w.extractLsb' 128 64 := slice_slice w (by omega)
theorem rndIn_reqDin (w : ReqWord) : rndIn (reqDin w) = w.extractLsb' 0 128 := slice_slice w (by omega)
theorem bufIn_reqDin (w : ReqWord) : bufIn (reqDin w) = w.extractLsb' 0 128 := slice_slice w (by omega)

theorem tsIn_concat (x : BitVec 16) (ts : BitVec 64) (rnd : BitVec 128) : tsIn (x ++ ts ++ rnd) = ts :=
  ((slice_append_high (x ++ ts) rnd (j := 0) rfl).trans (slice_append_low x ts (by omega))).trans (slice_all ts)

theorem rndIn_concat (x : BitVec 16) (ts : BitVec 64) (rnd : BitVec 128) : rndIn (x ++ ts ++ rnd) = rnd :=
  (slice_append_low (x ++ ts) rnd (by omega)).trans (slice_all rnd)

theorem bufIn_concat (x : BitVec 80) (buf : Buf) : bufIn (x ++ buf) = buf :=
  (slice_append_low x buf (by omega)).trans (slice_all buf)

theorem operationOf_opCode (o : Operation) : operationOf (opCode o) = o := by cases o <;> rfl

theorem opCode_operationOf : ∀ op : BitVec 2, opCode (operationOf op) = op := by decide

theorem decodeRequest_operation (w : ReqWord) : (decodeRequest w).operation = operationOf (reqOp w) := by
  unfold decodeRequest
  cases operationOf (reqOp w) <;> rfl

/-! What each operation code makes of the other fields. -/

theorem decodeRequest_pack {w : ReqWord} (h : reqOp w = 0b00#2) :
    decodeRequest w = .pack (tsIn (reqDin w)) (rndIn (reqDin w)) := by
  unfold decodeRequest; rw [h]; rfl

theorem decodeRequest_unpack {w : ReqWord} (h : reqOp w = 0b01#2) : decodeRequest w = .unpack (bufIn (reqDin w)) := by
  unfold decodeRequest; rw [h]; rfl

theorem decodeRequest_encode {w : ReqWord} (h : reqOp w = 0b10#2) : decodeRequest w = .encode (bufIn (reqDin w)) := by
  unfold decodeRequest; rw [h]; rfl

theorem decodeRequest_decode {w : ReqWord} (h : reqOp w = 0b11#2) : decodeRequest w = .decode (reqLen w) (reqDin w) := by
  unfold decodeRequest; rw [h]; rfl

/-- The four codes are all there are (R24). -/
theorem reqOp_cases (w : ReqWord) : reqOp w = 0b00#2 ∨ reqOp w = 0b01#2 ∨ reqOp w = 0b10#2 ∨ reqOp w = 0b11#2 := by
  have : ∀ op : BitVec 2, op = 0b00#2 ∨ op = 0b01#2 ∨ op = 0b10#2 ∨ op = 0b11#2 := by decide
  exact this _

theorem statusOf_statusCode (st : Status) : statusOf (statusCode st) = some st := by cases st <;> rfl

theorem status_of_responseWord (r : Response) : (responseWord r).extractLsb' 208 3 = statusCode r.status :=
  (slice_append_high (statusCode r.status) r.dout (j := 0) rfl).trans (slice_all _)

theorem dout_of_responseWord (r : Response) : (responseWord r).extractLsb' 0 208 = r.dout :=
  (slice_append_low (statusCode r.status) r.dout (by omega)).trans (slice_all _)

end Sys2Proof
end

