-- ==== Sys2Proof/Laws/State.lean ====
section
/-! SUPPORT. One lemma per field and per update of the state, each true by unfolding, so that no proof unfolds a record
update. -/

namespace Sys2Proof.Machine

variable (s : State) (p : PortIn) (ws : List ReqWord) (n : Nat)

@[simp] theorem resetWith_ports : (State.resetWith n).ports = [] := rfl
@[simp] theorem resetWith_pipe : (State.resetWith n).pipe = List.replicate n none := rfl
@[simp] theorem resetWith_rsp : (State.resetWith n).rsp = none := rfl
@[simp] theorem resetWith_log : (State.resetWith n).log = [] := rfl

@[simp] theorem dropPort_ports : (dropPort s).ports = s.ports.tail := rfl
@[simp] theorem dropPort_pipe : (dropPort s).pipe = s.pipe := rfl
@[simp] theorem dropPort_rsp : (dropPort s).rsp = s.rsp := rfl
@[simp] theorem dropPort_log : (dropPort s).log = s.log := rfl

@[simp] theorem planFirst_ports : (planFirst p s).ports = p :: s.ports := rfl
@[simp] theorem planFirst_pipe : (planFirst p s).pipe = s.pipe := rfl
@[simp] theorem planFirst_rsp : (planFirst p s).rsp = s.rsp := rfl
@[simp] theorem planFirst_log : (planFirst p s).log = s.log := rfl

@[simp] theorem planRequests_ports : (planRequests ws s).ports = s.ports ++ ws.map presentRequest := rfl
@[simp] theorem planRequests_pipe : (planRequests ws s).pipe = s.pipe := rfl
@[simp] theorem planRequests_rsp : (planRequests ws s).rsp = s.rsp := rfl
@[simp] theorem planRequests_log : (planRequests ws s).log = s.log := rfl

@[simp] theorem resetCycle_ports : (resetCycle s).ports = s.ports := rfl
@[simp] theorem resetCycle_pipe : (resetCycle s).pipe = s.pipe.map fun _ => none := rfl
@[simp] theorem resetCycle_rsp : (resetCycle s).rsp = none := rfl
@[simp] theorem resetCycle_log : (resetCycle s).log = s.log := rfl

variable (e : Option Response)

@[simp] theorem clockPipe_ports : (clockPipe e s).ports = s.ports := by
  unfold clockPipe; split <;> rfl

/-- What goes in at one end and comes out at the other. -/
theorem clockPipe_shift : s.pipe ++ [e] = (clockPipe e s).rsp :: (clockPipe e s).pipe := by
  unfold clockPipe; split <;> simp [*]

theorem clockPipe_log : (clockPipe e s).log = s.log ++ (clockPipe e s).rsp.toList := by
  unfold clockPipe; split <;> rfl

theorem clockPipe_pipe_length : (clockPipe e s).pipe.length = s.pipe.length := by
  have h := congrArg List.length (clockPipe_shift s e)
  rw [List.length_append, List.length_singleton, List.length_cons] at h
  omega

end Sys2Proof.Machine
end

