-- ==== Sys2Proof/Laws/Ops.lean ====
section
/-! SUPPORT. What the shared operations and one step can do, said once. -/

namespace Sys2Proof.Machine

/-- Every operation answers its response and does nothing else (R10, R61). -/
theorem exec_eq_answer (i : Instr) (s : State) : exec i s = answer (respond i) s := by cases i <;> rfl

/-- The state after one clock cycle. -/
def afterCycle (s : State) : State :=
  match nextEvent s with
  | .reset => resetCycle (dropPort s)
  | .idle => clockPipe none (dropPort s)
  | .request w => clockPipe (some (transact w)) (dropPort s)

theorem step_eq_next (s : State) : step s = .next (afterCycle s) := by
  unfold step afterCycle
  cases nextEvent s with
  | reset => rfl
  | idle => rfl
  | request w => exact exec_eq_answer _ _

theorem afterCycle_ports (s : State) : (afterCycle s).ports = s.ports.tail := by
  unfold afterCycle; split <;> simp

theorem afterCycle_pipe_length (s : State) : (afterCycle s).pipe.length = s.pipe.length := by
  unfold afterCycle
  split
  · simp
  · simp [clockPipe_pipe_length]
  · simp [clockPipe_pipe_length]

/-- `k` cycles, one after the other; none of them stops. -/
def afterCycles : Nat → State → State
  | 0, s => s
  | k + 1, s => afterCycles k (afterCycle s)

theorem run_eq_next (k : Nat) (s : State) : Host.Core.run Sys2Proof.core k s = .next (afterCycles k s) := by
  induction k generalizing s with
  | zero => rfl
  | succ k ih =>
    simp only [Host.Core.run, show Sys2Proof.core.step s = .next (afterCycle s) from step_eq_next s]
    exact ih (afterCycle s)

theorem afterCycles_ports (k : Nat) (s : State) : (afterCycles k s).ports = s.ports.drop k := by
  induction k generalizing s with
  | zero => rfl
  | succ k ih => rw [afterCycles, ih, afterCycle_ports, List.drop_tail]

theorem afterCycles_pipe_length (k : Nat) (s : State) : (afterCycles k s).pipe.length = s.pipe.length := by
  induction k generalizing s with
  | zero => rfl
  | succ k ih => rw [afterCycles, ih, afterCycle_pipe_length]

/-- The response a cycle puts into the pipeline, if it takes a request (`rst` low). -/
def takenResponse : List PortIn → Option Response
  | [] => none
  | p :: _ => if p.reqValid = true then some (transact (joinRequest p.reqOp p.reqLen p.reqDin)) else none

/-- A cycle in which `rst` is low is one shift of the pipeline (R75). -/
theorem afterCycle_eq_clockPipe {s : State} (h : ∀ p ∈ s.ports.head?, p.rst = false) :
    afterCycle s = clockPipe (takenResponse s.ports) (dropPort s) := by
  unfold afterCycle nextEvent takenResponse
  cases hp : s.ports with
  | nil => rfl
  | cons p ps =>
    have hr : p.rst = false := h p (by simp [hp])
    cases hv : p.reqValid <;> simp [portEvent, hr, hv]

end Sys2Proof.Machine
end

