-- ==== Sys2Proof/Laws/Words.lean ====
section
/-! SUPPORT. What joining and slicing do: cells (R25, R26), groups (R38, R43), bytes (R33). -/

namespace Sys2Proof.Laws
open Sys2Proof.Machine

/-! ## Joining fields into a word -/

/-- A fold that shifts by `w` and puts the next field at the bottom spells a number in base `2^w`. -/
theorem toNat_joinBits {w m : Nat} (hw : w ≤ m) (fs : List (BitVec w)) (acc : BitVec m)
    (h : acc.toNat * (2 ^ w) ^ fs.length + horner (2 ^ w) (fs.map BitVec.toNat) < 2 ^ m) :
    (fs.foldl (fun (a : BitVec m) f => a <<< w ||| f.setWidth m) acc).toNat
      = acc.toNat * (2 ^ w) ^ fs.length + horner (2 ^ w) (fs.map BitVec.toNat) := by
  induction fs generalizing acc with
  | nil => simp [horner]
  | cons f fs ih =>
    have hf : f.toNat < 2 ^ w := f.isLt
    have hp : 0 < (2 ^ w) ^ fs.length := Nat.pow_pos (Nat.two_pow_pos w)
    rw [List.map_cons, horner_cons, List.length_map, List.length_cons, Nat.pow_succ] at h
    have key : acc.toNat * 2 ^ w + f.toNat < 2 ^ m := by
      refine lt_of_le_of_lt ?_ h
      have := Nat.le_mul_of_pos_right (acc.toNat * 2 ^ w + f.toNat) hp
      nlinarith
    have one : (acc <<< w ||| f.setWidth m).toNat = acc.toNat * 2 ^ w + f.toNat := by
      have hm : f.toNat < 2 ^ m := lt_of_lt_of_le hf (Nat.pow_le_pow_right (by omega) hw)
      rw [BitVec.toNat_or, BitVec.toNat_shiftLeft, BitVec.toNat_setWidth, Nat.mod_eq_of_lt hm, Nat.shiftLeft_eq,
        Nat.mod_eq_of_lt (by omega), Nat.mul_comm, Nat.two_pow_add_eq_or_of_lt hf]
    rw [List.foldl_cons, ih, one, List.map_cons, horner_cons, List.length_map, List.length_cons, Nat.pow_succ]
    · ring
    · rw [one]; nlinarith

theorem horner_bits_lt {w : Nat} (fs : List (BitVec w)) :
    horner (2 ^ w) (fs.map BitVec.toNat) < (2 ^ w) ^ fs.length := by
  have := horner_lt (b := 2 ^ w) (ds := fs.map BitVec.toNat) (by simp only [List.mem_map]; rintro _ ⟨f, _, rfl⟩; exact f.isLt)
  simpa using this

theorem toNat_joinCells {cs : List Byte} (h : cs.length = 26) :
    (joinCells cs).toNat = horner 256 (cs.map BitVec.toNat) := by
  have b := horner_bits_lt cs
  rw [h] at b
  have := toNat_joinBits (m := 208) (by omega) cs 0 (by simpa using b)
  simpa [joinCells] using this

theorem toNat_joinGroups {vs : List Symbol} (h : vs.length = 26) :
    (joinGroups vs).toNat = horner 32 (vs.map BitVec.toNat) := by
  have b := horner_bits_lt vs
  rw [h] at b
  have := toNat_joinBits (m := 130) (by omega) vs 0 (by simpa using b)
  simpa [joinGroups] using this

/-! ## Cells -/

theorem toNat_cell (t : Text) {i : Nat} (hi : i < 26) : (cell t i).toNat = t.toNat / 256 ^ (25 - i) % 256 := by
  have e : 200 - 8 * i = 8 * (25 - i) := by omega
  rw [cell, BitVec.extractLsb'_toNat, Nat.shiftRight_eq_div_pow, e, Nat.pow_mul]

theorem toNat_group (v : Buf) {i : Nat} (hi : i < 26) : (group v i).toNat = v.toNat / 32 ^ (25 - i) % 32 := by
  have e : 125 - 5 * i = 5 * (25 - i) := by omega
  have hv : v.toNat < 2 ^ 130 := lt_trans v.isLt (by norm_num)
  rw [group, BitVec.extractLsb'_toNat, Nat.shiftRight_eq_div_pow, e, Nat.pow_mul, BitVec.toNat_setWidth, Nat.mod_eq_of_lt hv]

theorem toNat_bufByte (v : Buf) {i : Nat} (hi : i < 16) : (bufByte v i).toNat = v.toNat / 256 ^ (15 - i) % 256 := by
  have e : 120 - 8 * i = 8 * (15 - i) := by omega
  rw [bufByte, BitVec.extractLsb'_toNat, Nat.shiftRight_eq_div_pow, e, Nat.pow_mul]

theorem length_cells (t : Text) : (cells t).length = 26 := by simp [cells]
theorem length_groups (v : Buf) : (groups v).length = 26 := by simp [groups]
theorem length_bufBytes (v : Buf) : (bufBytes v).length = 16 := by simp [bufBytes]
theorem length_textValues (t : Text) : (textValues t).length = 26 := by simp [textValues, length_cells]

theorem map_range_digits {n b k : Nat} {f : Nat → Nat} (h : ∀ i < k, f i = n / b ^ (k - 1 - i) % b) :
    horner b ((List.range k).map f) = n % b ^ k := by
  rw [← horner_digits]
  congr 1
  exact List.map_congr_left fun i hi => h i (List.mem_range.mp hi)

/-- The cells of a text spell it in base 256. -/
theorem horner_cells (t : Text) : horner 256 ((cells t).map BitVec.toNat) = t.toNat := by
  rw [cells, List.map_map, map_range_digits (f := BitVec.toNat ∘ cell t) (n := t.toNat) fun i hi => toNat_cell t hi]
  exact Nat.mod_eq_of_lt t.isLt

/-- The groups of a value spell it in base 32 (R38). -/
theorem horner_groups (v : Buf) : horner 32 ((groups v).map BitVec.toNat) = v.toNat := by
  rw [groups, List.map_map, map_range_digits (f := BitVec.toNat ∘ group v) (n := v.toNat) fun i hi => toNat_group v hi]
  exact Nat.mod_eq_of_lt (lt_trans v.isLt (by norm_num))

/-- The bytes of a buffer spell its value in base 256 (R33). -/
theorem horner_bufBytes (v : Buf) : horner 256 ((bufBytes v).map BitVec.toNat) = v.toNat := by
  rw [bufBytes, List.map_map, map_range_digits (f := BitVec.toNat ∘ bufByte v) (n := v.toNat) fun i hi => toNat_bufByte v hi]
  exact Nat.mod_eq_of_lt v.isLt

/-- A cell of joined cells is the cell that was joined. -/
theorem cell_joinCells {cs : List Byte} (h : cs.length = 26) {i : Nat} (hi : i < 26) :
    cell (joinCells cs) i = cs[i]'(by omega) := by
  apply BitVec.eq_of_toNat_eq
  have := horner_digit (b := 256) (ds := cs.map BitVec.toNat) (by simp only [List.mem_map]; rintro _ ⟨f, _, rfl⟩; exact f.isLt)
    i (by simp; omega)
  rw [toNat_cell _ hi, toNat_joinCells h]
  simpa [h] using this

theorem cells_joinCells {cs : List Byte} (h : cs.length = 26) : cells (joinCells cs) = cs := by
  apply List.ext_getElem (by simp [length_cells, h])
  intro i h1 _
  have hi : i < 26 := by simpa [length_cells] using h1
  simp only [cells, List.getElem_map, List.getElem_range]
  exact cell_joinCells h hi

/-- A text is what its cells join to. -/
theorem joinCells_cells (t : Text) : joinCells (cells t) = t := by
  apply BitVec.eq_of_toNat_eq
  rw [toNat_joinCells (length_cells t), horner_cells]

/-- A value is what its groups join to (R43 undoes R38). -/
theorem joinGroups_groups (v : Buf) : (joinGroups (groups v)).extractLsb' 0 128 = v := by
  apply BitVec.eq_of_toNat_eq
  rw [BitVec.extractLsb'_toNat, toNat_joinGroups (length_groups v), horner_groups]
  simpa using v.isLt

/-- The groups of the low 128 bits of joined groups are those groups, when the first is at most 7 (R43, R47). -/
theorem groups_joinGroups {vs : List Symbol} (h : vs.length = 26) (hv : (joinGroups vs).toNat < 2 ^ 128) :
    groups ((joinGroups vs).extractLsb' 0 128) = vs := by
  apply List.ext_getElem (by simp [length_groups, h])
  intro i h1 _
  have hi : i < 26 := by simpa [length_groups] using h1
  apply BitVec.eq_of_toNat_eq
  have := horner_digit (b := 32) (ds := vs.map BitVec.toNat) (by simp only [List.mem_map]; rintro _ ⟨f, _, rfl⟩; exact f.isLt)
    i (by simp; omega)
  simp only [groups, List.getElem_map, List.getElem_range]
  rw [toNat_group _ hi, BitVec.extractLsb'_toNat, Nat.shiftRight_zero, Nat.mod_eq_of_lt hv, toNat_joinGroups h]
  simpa [h] using this

/-- `Y` is below 2^128 exactly when the first value is at most 7 (R47). -/
theorem joinGroups_lt_iff {vs : List Symbol} (h : vs.length = 26) :
    (joinGroups vs).toNat < 2 ^ 128 ↔ (vs[0]'(by omega)).toNat ≤ 7 := by
  rw [toNat_joinGroups h]
  match vs, h with
  | v :: vs, h =>
    have hl : vs.length = 25 := by simpa using h
    have b := horner_bits_lt vs
    rw [hl] at b
    rw [List.map_cons, horner_cons, List.length_map, hl, List.getElem_cons_zero]
    norm_num at b ⊢
    omega

theorem forall_cells_iff {P : Byte → Prop} (t : Text) : (∀ c ∈ cells t, P c) ↔ ∀ i < 26, P (cell t i) := by
  simp [cells]

end Sys2Proof.Laws
end

