-- ==== Sys2Proof/Laws/Order.lean ====
section
/-! SUPPORT. Order of words and dictionary order of their bytes, groups and cells (R52, R53). -/

namespace Sys2Proof.Laws

open Sys2Proof.Machine

/-- Dictionary order along an order embedding. -/
theorem lex_map {α β : Type} (f : α → β) (r : α → α → Prop) (s : β → β → Prop) (h : ∀ a b, s (f a) (f b) ↔ r a b)
    (hi : Function.Injective f) (xs ys : List α) : List.Lex s (xs.map f) (ys.map f) ↔ List.Lex r xs ys := by
  induction xs generalizing ys with
  | nil => cases ys <;> simp
  | cons x xs ih =>
    cases ys with
    | nil => simp
    | cons y ys => rw [List.map_cons, List.map_cons, lex_cons, lex_cons, h, ih, hi.eq_iff]

/-- Fields of one width are in dictionary order as the numbers they spell. -/
theorem horner_bits_lt_iff_lex {w : Nat} (xs ys : List (BitVec w)) (hl : xs.length = ys.length) :
    horner (2 ^ w) (xs.map BitVec.toNat) < horner (2 ^ w) (ys.map BitVec.toNat) ↔ List.Lex (· < ·) xs ys := by
  have digits : ∀ fs : List (BitVec w), ∀ d ∈ fs.map BitVec.toNat, d < 2 ^ w := by
    intro fs d hd
    obtain ⟨f, _, rfl⟩ := List.mem_map.mp hd
    exact f.isLt
  rw [horner_lt_iff_lex (by simpa using hl) (digits xs) (digits ys)]
  exact lex_map BitVec.toNat (· < ·) _ (fun a b => by rw [BitVec.lt_def]) (fun _ _ => BitVec.eq_of_toNat_eq) xs ys

theorem lt_iff_lex_bufBytes (a b : Buf) : a < b ↔ List.Lex (· < ·) (bufBytes a) (bufBytes b) := by
  have h := horner_bits_lt_iff_lex (bufBytes a) (bufBytes b) (by simp [length_bufBytes])
  change horner 256 _ < horner 256 _ ↔ _ at h
  rwa [horner_bufBytes, horner_bufBytes, ← BitVec.lt_def] at h

theorem lt_iff_lex_groups (a b : Buf) : a < b ↔ List.Lex (· < ·) (groups a) (groups b) := by
  have h := horner_bits_lt_iff_lex (groups a) (groups b) (by simp [length_groups])
  change horner 32 _ < horner 32 _ ↔ _ at h
  rwa [horner_groups, horner_groups, ← BitVec.lt_def] at h

theorem lt_iff_lex_cells (a b : Text) : a < b ↔ List.Lex (· < ·) (cells a) (cells b) := by
  have h := horner_bits_lt_iff_lex (cells a) (cells b) (by simp [length_cells])
  change horner 256 _ < horner 256 _ ↔ _ at h
  rwa [horner_cells, horner_cells, ← BitVec.lt_def] at h

end Sys2Proof.Laws
end

