-- ==== Sys2Proof/Laws/PerInstr.lean ====
section
/-! SUPPORT. What holds of every operation as a word, one lemma per constructor of `Instr`. -/

/-- The operation code of the encoded request is the one R24 gives the operation, and the decoder selects that
operation from it. -/
def Sys2Proof.Laws.OpCodeField.Statement (i : Sys2Proof.Instr) : Prop :=
  Sys2Proof.reqOp (Sys2Proof.encodeRequest i) = Sys2Proof.opCode i.operation ∧
    (Sys2Proof.decodeRequest (Sys2Proof.encodeRequest i)).operation = i.operation

namespace Sys2Proof.Laws.OpCodeField

theorem statement_of_encode (i : Instr) : Statement i := by
  have h : reqOp (encodeRequest i) = opCode i.operation := reqOp_joinRequest _ _ _
  exact ⟨h, by rw [decodeRequest_operation, h, operationOf_opCode]⟩

theorem pack (ts : BitVec 64) (rnd : BitVec 128) : Statement (.pack ts rnd) := statement_of_encode _
theorem unpack (buf : Buf) : Statement (.unpack buf) := statement_of_encode _
theorem encode (buf : Buf) : Statement (.encode buf) := statement_of_encode _
theorem decode (len : BitVec 8) (text : Text) : Statement (.decode len text) := statement_of_encode _

end Sys2Proof.Laws.OpCodeField
end

