-- ==== Sys2Proof/Laws/Tables.lean ====
section
/-! SUPPORT. The two tables against each other (R17, R18, R30). -/

namespace Sys2Proof.Machine

theorem decLut_encLut : ∀ v : Symbol, decLut (encLut v) = ⟨true, v⟩ := by decide

theorem encLut_injective {v w : Symbol} (h : encLut v = encLut w) : v = w := by
  have := decLut_encLut v
  rw [h, decLut_encLut] at this
  exact (DecEntry.mk.inj this).2.symm

theorem encLut_lt_iff : ∀ v w : Symbol, encLut v < encLut w ↔ v < w := by decide

/-- The encoder writes an accepted code back in upper case (R51). -/
theorem encLut_decLut : ∀ c : Byte, (decLut c).valid = true → encLut (decLut c).value = upperCase c := by decide

theorem decLut_upperCase : ∀ c : Byte, decLut (upperCase c) = decLut c := by decide

theorem upperCase_upperCase : ∀ c : Byte, upperCase (upperCase c) = upperCase c := by decide

theorem decLut_valid_iff : ∀ c : Byte, (decLut c).valid = true ↔ c ∈ (upperRows ++ lowerRows).map Prod.fst := by decide

/-- Among the valid codes those of value at most 7 are the digits 0 to 7 (R49). -/
theorem decLut_le_seven_iff :
    ∀ c : Byte, (decLut c).valid = true → ((decLut c).value.toNat ≤ 7 ↔ 0x30#8 ≤ c ∧ c ≤ 0x37#8) := by decide

theorem encLut_mem : ∀ v : Symbol, encLut v ∈ encTable := by decide

theorem mem_encTable : ∀ c ∈ encTable, (decLut c).valid = true ∧ upperCase c = c := by decide

theorem encLut_le_seven : ∀ v : Symbol, encLut v ≤ 0x37#8 ↔ v.toNat ≤ 7 := by decide

end Sys2Proof.Machine
end

