-- ==== Sys2Proof/Laws/Responses.lean ====
section
/-! SUPPORT. What each operation answers, in the terms the laws of `43_contracts_and_order.md` need. -/

namespace Sys2Proof.Machine

open Sys2Proof.Laws

theorem rangeViolated_iff (ts : BitVec 64) (rnd : BitVec 128) :
    rangeViolated ts rnd = true ↔ ts.toNat > 2 ^ 48 - 1 ∨ rnd.toNat > 2 ^ 80 - 1 := by
  simp [rangeViolated]

theorem wrongLength_iff (len : BitVec 8) : wrongLength len = true ↔ len ≠ 26#8 := by simp [wrongLength]

theorem badCharacter_iff (t : Text) : badCharacter t = true ↔ ∃ i < 26, (decLut (cell t i)).valid = false := by
  simp [badCharacter, cells]

theorem badCharacter_false_iff (t : Text) : badCharacter t = false ↔ ∀ i < 26, (decLut (cell t i)).valid = true := by
  rw [← Bool.not_eq_true, badCharacter_iff]
  simp

theorem firstAboveSeven_iff (t : Text) : firstAboveSeven t = true ↔ (decLut (cell t 0)).value.toNat > 7 := by
  simp [firstAboveSeven]

theorem packResponse_outOfRange {ts : BitVec 64} {rnd : BitVec 128} (h : ts.toNat > 2 ^ 48 - 1 ∨ rnd.toNat > 2 ^ 80 - 1) :
    packResponse ts rnd = ⟨.rangeError, 0⟩ := if_pos ((rangeViolated_iff ts rnd).mpr h)

theorem packResponse_inRange {ts : BitVec 64} {rnd : BitVec 128} (ht : ts.toNat ≤ 2 ^ 48 - 1) (hr : rnd.toNat ≤ 2 ^ 80 - 1) :
    packResponse ts rnd = ⟨.ok, (ulidValue ⟨ts.extractLsb' 0 48, rnd.extractLsb' 0 80⟩).setWidth 208⟩ :=
  if_neg fun h => by rcases (rangeViolated_iff ts rnd).mp h with h | h <;> omega

theorem encodeResponse_status (b : Buf) : (encodeResponse b).status = .ok := rfl

/-- The text of a buffer has the table's symbols for the groups of the buffer. -/
theorem cells_encodeResponse (b : Buf) : cells (encodeResponse b).dout = (groups b).map encLut :=
  cells_joinCells (by simp [length_groups])

theorem cell_encodeResponse (b : Buf) {i : Nat} (hi : i < 26) : cell (encodeResponse b).dout i = encLut (group b i) := by
  refine (cell_joinCells (by simp [length_groups]) hi).trans ?_
  simp [groups]

/-- The values of an encoded buffer's text are the buffer's groups. -/
theorem textValues_encodeResponse (b : Buf) : textValues (encodeResponse b).dout = groups b := by
  rw [textValues, cells_encodeResponse, List.map_map]
  refine (List.map_congr_left fun v _ => ?_).trans (List.map_id _)
  simp [decLut_encLut]

theorem decodeTextResponse_length {len : BitVec 8} (t : Text) (h : len ≠ 26#8) :
    decodeTextResponse len t = ⟨.invalidLengthError, 0⟩ := if_pos ((wrongLength_iff len).mpr h)

theorem decodeTextResponse_character {t : Text} (h : badCharacter t = true) :
    decodeTextResponse 26 t = ⟨.invalidCharacterError, 0⟩ := by
  unfold decodeTextResponse
  rw [if_neg (by decide), if_pos h]; rfl

theorem decodeTextResponse_overflow {t : Text} (hc : badCharacter t = false) (hf : firstAboveSeven t = true) :
    decodeTextResponse 26 t = ⟨.overflowError, 0⟩ := by
  unfold decodeTextResponse
  rw [if_neg (by decide), if_neg (by simp [hc]), if_pos hf]; rfl

theorem decodeTextResponse_ok {t : Text} (hc : badCharacter t = false) (hf : firstAboveSeven t = false) :
    decodeTextResponse 26 t = ⟨.ok, (textBuf t).setWidth 208⟩ := by
  unfold decodeTextResponse
  rw [if_neg (by decide), if_neg (by simp [hc]), if_neg (by simp [hf])]; rfl

/-- The inversion of `DECODE`: one of its four endings, each with its cause. -/
theorem decodeTextResponse_cases (len : BitVec 8) (t : Text) :
    (len ≠ 26#8 ∧ decodeTextResponse len t = ⟨.invalidLengthError, 0⟩) ∨
    (len = 26#8 ∧ badCharacter t = true ∧ decodeTextResponse len t = ⟨.invalidCharacterError, 0⟩) ∨
    (len = 26#8 ∧ badCharacter t = false ∧ firstAboveSeven t = true ∧ decodeTextResponse len t = ⟨.overflowError, 0⟩) ∨
    (len = 26#8 ∧ badCharacter t = false ∧ firstAboveSeven t = false ∧
      decodeTextResponse len t = ⟨.ok, (textBuf t).setWidth 208⟩) := by
  by_cases hl : len = 26#8
  · subst hl
    cases hc : badCharacter t with
    | true => exact .inr (.inl ⟨rfl, rfl, decodeTextResponse_character hc⟩)
    | false =>
      cases hf : firstAboveSeven t with
      | true => exact .inr (.inr (.inl ⟨rfl, rfl, rfl, decodeTextResponse_overflow hc hf⟩))
      | false => exact .inr (.inr (.inr ⟨rfl, rfl, rfl, decodeTextResponse_ok hc hf⟩))
  · exact .inl ⟨hl, decodeTextResponse_length t hl⟩

theorem textValues_zero (t : Text) : (textValues t)[0]'(by simp [length_textValues]) = (decLut (cell t 0)).value := by
  simp [textValues, cells]

/-- A text whose first value is at most 7 spells a number of 128 bits (R47). -/
theorem joinGroups_textValues_lt_iff (t : Text) :
    (joinGroups (textValues t)).toNat < 2 ^ 128 ↔ firstAboveSeven t = false := by
  rw [joinGroups_lt_iff (length_textValues t), textValues_zero, ← Bool.not_eq_true, firstAboveSeven_iff]
  omega

/-- The groups of a decoded text are its values (R43). -/
theorem groups_textBuf {t : Text} (hf : firstAboveSeven t = false) : groups (textBuf t) = textValues t :=
  groups_joinGroups (length_textValues t) ((joinGroups_textValues_lt_iff t).mpr hf)

theorem toNat_textBuf {t : Text} (hf : firstAboveSeven t = false) :
    (textBuf t).toNat = horner 32 ((textValues t).map BitVec.toNat) := by
  rw [← groups_textBuf hf, horner_groups]

/-- Encoding a decoded text gives its upper-case form (R51). -/
theorem encode_textBuf {t : Text} (hc : badCharacter t = false) (hf : firstAboveSeven t = false) :
    (encodeResponse (textBuf t)).dout = canonicalText t := by
  show joinCells ((groups (textBuf t)).map encLut) = joinCells ((cells t).map upperCase)
  rw [groups_textBuf hf, textValues, List.map_map]
  congr 1
  apply List.map_congr_left
  intro c hcell
  obtain ⟨i, hi, rfl⟩ := by simpa [cells] using hcell
  exact encLut_decLut _ ((badCharacter_false_iff t).mp hc i hi)

theorem badCharacter_encodeResponse (b : Buf) : badCharacter (encodeResponse b).dout = false := by
  rw [badCharacter_false_iff]
  intro i hi
  rw [cell_encodeResponse b hi, decLut_encLut]

theorem group_zero_le (b : Buf) : (group b 0).toNat ≤ 7 := by
  rw [toNat_group b (by omega)]
  have := b.isLt
  omega

theorem firstAboveSeven_encodeResponse (b : Buf) : firstAboveSeven (encodeResponse b).dout = false := by
  rw [← Bool.not_eq_true, firstAboveSeven_iff, cell_encodeResponse b (by omega), decLut_encLut]
  exact Nat.not_lt.mpr (group_zero_le b)

theorem textBuf_encodeResponse (b : Buf) : textBuf (encodeResponse b).dout = b := by
  unfold textBuf
  rw [textValues_encodeResponse, joinGroups_groups]

end Sys2Proof.Machine
end

