-- ==== Sys2Proof/Laws/Runs.lean ====
section
/-! SUPPORT. What a run owes the host (R75), and what a script's line asks for (R31). -/

namespace Sys2Proof.Machine

/-- A cycle adds to what is owed the response that enters, and nothing else. -/
theorem owed_clockPipe (e : Option Response) (s : State) : owed (clockPipe e s) = owed s ++ e.toList := by
  have h := congrArg (List.filterMap id) (clockPipe_shift s e)
  have single : List.filterMap id [e] = e.toList := by cases e <;> rfl
  rw [List.filterMap_append, single] at h
  unfold owed
  rw [clockPipe_log, List.append_assoc, List.append_assoc, h]
  congr 1
  cases (clockPipe e s).rsp <;> simp

theorem owed_dropPort (s : State) : owed (dropPort s) = owed s := rfl

/-- The requests planned by the host are those its port values carry. -/
theorem requestsOf_map_presentRequest (ws : List ReqWord) : requestsOf (ws.map presentRequest) = ws := by
  unfold requestsOf
  rw [List.filter_eq_self.mpr (by simp [presentRequest]), List.map_map]
  exact (List.map_congr_left fun w _ => joinRequest_fields w).trans (List.map_id ws)

theorem numOperand_lit {w n : Nat} (ρ : ScriptEnv) (h : n < 2 ^ w) :
    numOperand ρ w (.lit n) = some (BitVec.ofNat w n) := if_pos h

theorem numOperand_ref {w n : Nat} {ρ : ScriptEnv} {x : ScriptName} (hx : ρ.lookup x = some (.num n)) (h : n < 2 ^ w) :
    numOperand ρ w (.ref x) = some (BitVec.ofNat w n) := by
  unfold numOperand
  simp only [hx]
  exact if_pos h

end Sys2Proof.Machine
end

