-- ==== Sys2Proof/Tests/Slice0.lean ====
section
/-! SUPPORT. Tests and witnesses. Expected results are those of `95_test_vectors.md` (named in each comment) or are written
out from a rule's table; a witness shows that the hypotheses of a statement can be met, at the edges of their ranges. -/

namespace Sys2Proof.Tests

open Sys2Proof.Machine

/-! ## Widths (R5, R6) -/

theorem test_widths_agree : Config.opW + Config.lenW + Config.dinW = 218 ∧ Config.stW + Config.doutW = 211 ∧
    Config.textLen * Config.charW = Config.dinW ∧ Config.timestampW + Config.randomnessW = Config.ulidW ∧
    Config.tsInW = 64 ∧ Config.rndInW = 128 ∧ Config.textLen * Config.symbolW = Config.ulidW + 2 := by decide

/-! ## WellFormed: an ill-formed term for each check -/

theorem test_wf_refuses_wide_timestamp_literal :
    (CoreLine.pack (.lit (2 ^ 64)) (.lit 0) (.user 0)).wf [] = false := by decide
theorem test_wf_refuses_wide_randomness_literal :
    (CoreLine.pack (.lit 0) (.lit (2 ^ 128)) (.user 0)).wf [] = false := by decide
theorem test_wf_refuses_wide_unpack_literal : (CoreLine.unpack (.lit (2 ^ 128)) (.user 0) (.user 1)).wf [] = false := by decide
theorem test_wf_refuses_unbound_number : (CoreLine.encode (.ref (.user 0)) (.user 1)).wf [] = false := by decide
theorem test_wf_refuses_unbound_text : (CoreLine.decode (.ref (.user 0)) (.user 1)).wf [] = false := by decide
theorem test_wf_refuses_text_as_number :
    (CoreLine.encode (.ref (.user 0)) (.user 1)).wf [(.user 0, .text)] = false := by decide
theorem test_wf_refuses_number_as_text :
    (CoreLine.decode (.ref (.user 0)) (.user 1)).wf [(.user 0, .num128)] = false := by decide
theorem test_wf_refuses_wide_name :
    (CoreLine.pack (.ref (.user 0)) (.lit 0) (.user 1)).wf [(.user 0, .num128)] = false := by decide
theorem test_wf_refuses_script_with_late_binding :
    scriptWf [] [.encode (.ref (.user 0)) (.user 1), .pack (.lit 0) (.lit 0) (.user 0)] = false := by decide

/-! ## Decoding: one word of each operation, its fields written out (R22, R25) -/

/-- op 00, len 0xFF and din[207:192] 0xFFFF ignored (W-2, P-13). -/
theorem test_decode_pack : decodeRequest 0x0FFFFFF000001D2A6F450000000000000000123456789ABCDEF0123#218
    = .pack 0x000001D2A6F45000 0x0000000000000123456789ABCDEF0123 := by decide
/-- op 01 (W-3). -/
theorem test_decode_unpack : decodeRequest 0x1000000000000000000000001D2A6F450000123456789ABCDEF0123#218
    = .unpack 0x01D2A6F450000123456789ABCDEF0123 := by decide
/-- op 10 (W-4). -/
theorem test_decode_encode : decodeRequest 0x2000000000000000000000001D2A6F450000123456789ABCDEF0123#218
    = .encode 0x01D2A6F450000123456789ABCDEF0123 := by decide
/-- op 11, len 25 (W-7). -/
theorem test_decode_decode : decodeRequest 0x3193030303030303030303030303030303030303030303030303000#218
    = .decode 25 0x3030303030303030303030303030303030303030303030303000 := by decide
theorem test_decode_rejects_a_wire_too_many : decodeNumber (2 ^ 218) = .error .wireBeyondRequest := by decide
theorem test_response_rejects_code_five : decodeResponse (5#3 ++ 0#208) = .error (.neverProduced 5) := by decide

/-! ## Operations, word to word -/

/-- W-1, W-2, W-10, W-11, W-12, W-13. -/
theorem test_pack_words :
    transactWord 0x0000000000001D2A6F450000000000000000123456789ABCDEF0123#218 = 0x00000000000000000000001D2A6F450000123456789ABCDEF0123#211 ∧
    transactWord 0x0FFFFFF000001D2A6F450000000000000000123456789ABCDEF0123#218 = 0x00000000000000000000001D2A6F450000123456789ABCDEF0123#211 ∧
    transactWord 0x0000000000100000000000000000000000000000000000000000000#218 = 0x10000000000000000000000000000000000000000000000000000#211 ∧
    transactWord 0x0000000000000000000000000000000000100000000000000000000#218 = 0x10000000000000000000000000000000000000000000000000000#211 ∧
    transactWord 0x00000000000FFFFFFFFFFFF000000000000FFFFFFFFFFFFFFFFFFFF#218 = 0x000000000000000000000FFFFFFFFFFFFFFFFFFFFFFFFFFFFFFFF#211 ∧
    transactWord 0x0000000FFFFFFFFFFFFFFFFFFFFFFFFFFFFFFFFFFFFFFFFFFFFFFFF#218 = 0x10000000000000000000000000000000000000000000000000000#211 := by
  decide

/-- W-3, and line 3 of program 2 (U-2). -/
theorem test_unpack_words :
    transactWord 0x1000000000000000000000001D2A6F450000123456789ABCDEF0123#218 = 0x00000000001D2A6F450000000000000000123456789ABCDEF0123#211 ∧
    transactWord 0x10000000000000000000000FFFFFFFFFFFFFFFFFFFFFFFFFFFFFFFF#218 = 0x000000000FFFFFFFFFFFF000000000000FFFFFFFFFFFFFFFFFFFF#211 := by
  decide

/-- W-4, and lines 2 of programs 2 and 4. -/
theorem test_encode_words :
    transactWord 0x2000000000000000000000001D2A6F450000123456789ABCDEF0123#218 = 0x0303154414B46384D30303034484D415357394E46365959303933#211 ∧
    transactWord 0x20000000000000000000000FFFFFFFFFFFFFFFFFFFFFFFFFFFFFFFF#218 = 0x0375A5A5A5A5A5A5A5A5A5A5A5A5A5A5A5A5A5A5A5A5A5A5A5A5A#211 ∧
    transactWord 0x200000000000000000000000000000003E800000000000000010000#218 = 0x030303030303030305A3830303030303030303030303032303030#211 := by
  decide

/-- W-5 to W-9, line 1 of program 2, and variants b to e of program 3. -/
theorem test_decode_words :
    transactWord 0x31A303154414B46384D30303034484D415357394E46365959303933#218 = 0x00000000000000000000001D2A6F450000123456789ABCDEF0123#211 ∧
    transactWord 0x31A303174616B66386D30303034686D617377396E66367979303933#218 = 0x00000000000000000000001D2A6F450000123456789ABCDEF0123#211 ∧
    transactWord 0x3193030303030303030303030303030303030303030303030303000#218 = 0x20000000000000000000000000000000000000000000000000000#211 ∧
    transactWord 0x31A3030303030303030303030303030303030303030303030303055#218 = 0x30000000000000000000000000000000000000000000000000000#211 ∧
    transactWord 0x31A3830303030303030303030303030303030303030303030303030#218 = 0x40000000000000000000000000000000000000000000000000000#211 ∧
    transactWord 0x31A377A5A7A5A7A5A7A5A7A5A7A5A7A5A7A5A7A5A7A5A7A5A7A5A7A#218 = 0x000000000000000000000FFFFFFFFFFFFFFFFFFFFFFFFFFFFFFFF#211 ∧
    transactWord 0x31B303154414B46384D30303034484D415357394E46365959303933#218 = 0x20000000000000000000000000000000000000000000000000000#211 ∧
    transactWord 0x31A303154414B46384D30303034484D415357394E46365959303955#218 = 0x30000000000000000000000000000000000000000000000000000#211 ∧
    transactWord 0x31A5A3154414B46384D30303034484D415357394E46365959303933#218 = 0x40000000000000000000000000000000000000000000000000000#211 ∧
    transactWord 0x31A383154414B46384D30303034484D415357394E46365959303955#218 = 0x30000000000000000000000000000000000000000000000000000#211 := by
  decide

/-! ## One step -/

/-- R75: with `LATENCY` 0 the response is on the ports in the cycle of the request. W-10 as the first step after reset. -/
theorem test_step_answers_at_once :
    step (State.reset.withFetchWord 224 0x0000000000100000000000000000000000000000000000000000000)
      = .next { ports := [], pipe := [], rsp := some ⟨.rangeError, 0⟩, log := [⟨.rangeError, 0⟩] } := by rfl

/-- R75: with `LATENCY` 1 it is in flight after that cycle. -/
theorem test_step_holds_in_flight :
    step ((State.resetWith 1).withFetchWord 224 0x0000000000100000000000000000000000000000000000000000000)
      = .next { ports := [], pipe := [some ⟨.rangeError, 0⟩], rsp := none, log := [] } := by rfl

/-- R71: a request presented under reset is not taken, and what is in flight is dropped. -/
theorem test_step_reset :
    step { ports := [{ rst := true, reqValid := true, reqOp := 0, reqLen := 0, reqDin := 0 }],
           pipe := [some ⟨.overflowError, 0⟩], rsp := some ⟨.ok, 0⟩, log := [⟨.ok, 0⟩] }
      = .next { ports := [], pipe := [none], rsp := none, log := [⟨.ok, 0⟩] } := by rfl

/-! ## Scripts -/

/-- Program 3, the `PACK` side: `TOSTRING` of 2^48 stops with `RangeError` and issues no `ENCODE`. -/
theorem test_script_stops_at_range_error :
    runScript [.toString (.lit (2 ^ 48)) (.lit 0) (.user 0)]
      = ⟨[0x0000000000100000000000000000000000000000000000000000000], [⟨.rangeError, 0⟩], [], .stopped .rangeError⟩ := by decide

/-- Program 1 in the pseudo-operations of R32: the fields come back. -/
theorem test_script_text_and_back :
    let run := runScript [.toString (.lit 0x000001D2A6F45000) (.lit 0x0123456789ABCDEF0123) (.user 0),
      .parse (.ref (.user 0)) (.user 1) (.user 2)]
    run.outcome = .completed ∧ run.requests.length = 4 ∧
    run.bindings.lookup (.user 1) = some (.num 0x000001D2A6F45000) ∧
    run.bindings.lookup (.user 2) = some (.num 0x0123456789ABCDEF0123) := by decide

/-- Variant a of program 3: a text literal of 25 characters, its `len` and its last cell. -/
theorem test_script_short_text :
    (runScript [.parse (.lit [0x30, 0x31, 0x54, 0x41, 0x4B, 0x46, 0x38, 0x4D, 0x30, 0x30, 0x30, 0x34, 0x48, 0x4D, 0x41, 0x53,
      0x57, 0x39, 0x4E, 0x46, 0x36, 0x59, 0x59, 0x30, 0x39]) (.user 0) (.user 1)]).requests
      = [0x319303154414B46384D30303034484D415357394E46365959303900] := by decide

theorem test_script_error_on_unbound_name :
    (runScript [.core (.encode (.ref (.user 0)) (.user 1))]).outcome = .scriptError := by decide

/-! ## Witnesses -/

/-- A text of 26 times the character '0'. -/
def zeros : Text := 0x3030303030303030303030303030303030303030303030303030
/-- "7ZZZ...Z", the largest accepted text (D-2). -/
def largest : Text := 0x375A5A5A5A5A5A5A5A5A5A5A5A5A5A5A5A5A5A5A5A5A5A5A5A5A
/-- "8000...0", the smallest text refused for overflow (D-22). -/
def eight : Text := 0x3830303030303030303030303030303030303030303030303030
/-- 25 times '0', then 'U' (D-17). -/
def badLast : Text := 0x3030303030303030303030303030303030303030303030303055
/-- 'U', then 25 times '0' (D-21). -/
def badFirst : Text := 0x5530303030303030303030303030303030303030303030303030

theorem witness_EncodedRequestDecodesToItself : (Instr.pack (2 ^ 64 - 1) (2 ^ 128 - 1)).wf = true ∧
    (Instr.unpack (2 ^ 128 - 1)).wf = true ∧ (Instr.encode 0).wf = true ∧ (Instr.decode 255 0).wf = true := by decide

theorem witness_request_words_of_each_operation :
    (0 : ReqWord).extractLsb' 216 2 = 0b00#2 ∧ (1#2 ++ 0#216 : BitVec (2 + 216)).extractLsb' 216 2 = 0b01#2 ∧
    (2#2 ++ 0#216 : BitVec (2 + 216)).extractLsb' 216 2 = 0b10#2 ∧ (3#2 ++ 0#216 : BitVec (2 + 216)).extractLsb' 216 2 = 0b11#2 := by
  decide

theorem witness_TableRowsSelectWhatTheDecoderSelects : ∀ o : Operation, ∃ row ∈ opcodeTable, row.operation = o := by
  intro o; cases o <;> decide

theorem witness_IgnoredBitsDoNotChangeTheResponse : (25 : BitVec 8) ≠ 26#8 ∧ (27 : BitVec 8) ≠ 26#8 := by decide

theorem witness_ResponseWordReadsBack :
    4 < ((5#3 ++ 0#208 : BitVec (3 + 208)).extractLsb' 208 3).toNat ∧
    4 < ((7#3 ++ 0#208 : BitVec (3 + 208)).extractLsb' 208 3).toNat := by decide

theorem witness_EncoderTableIsTheAlphabetInCodeOrder : (0 : BitVec 5) < 1 ∧ (30 : BitVec 5) < 31 := by decide

theorem witness_DecoderTableInvertsTheEncoderTable :
    (0x61#8 ≤ 0x61#8 ∧ 0x61#8 ≤ 0x7A#8) ∧ (0x61#8 ≤ 0x7A#8 ∧ 0x7A#8 ≤ 0x7A#8) ∧
    ((∀ v, encLut v ≠ 0x60#8) ∧ ¬ (0x61#8 ≤ 0x60#8 ∧ 0x60#8 ≤ 0x7A#8)) ∧
    ((∀ v, encLut v ≠ 0x7B#8) ∧ ¬ (0x61#8 ≤ 0x7B#8 ∧ 0x7B#8 ≤ 0x7A#8)) ∧
    (decLut 0x55#8).valid = false ∧ 0x1F#8 < 0x20#8 ∧ 0x80#8 ≤ 0x80#8 ∧ 0x80#8 ≤ 0xFF#8 := by decide

/-- In range at both maxima, and out of range by one on either side (P-2, P-8, P-9). -/
theorem witness_PackAnswersTheBufferOrRangeError :
    (0x0000FFFFFFFFFFFF#64).toNat ≤ 2 ^ 48 - 1 ∧ (0xFFFFFFFFFFFFFFFFFFFF#128).toNat ≤ 2 ^ 80 - 1 ∧
    (0x0001000000000000#64).toNat > 2 ^ 48 - 1 ∧ (0x100000000000000000000#128).toNat > 2 ^ 80 - 1 := by decide

theorem witness_PackAndUnpackAreInverse :
    (0x0000FFFFFFFFFFFF#64).toNat < 2 ^ 48 ∧ (0xFFFFFFFFFFFFFFFFFFFF#128).toNat < 2 ^ 80 := by decide

/-- The first and the last byte of each field, the first and the last group of each field. -/
theorem witness_index_ranges : (0 < 6 ∧ 5 < 6) ∧ (0 < 10 ∧ 9 < 10) ∧ (0 < 16 ∧ 15 < 16) ∧ (1 ≤ 1 ∧ 25 < 26) := by decide

theorem witness_EncoderIsInjectiveAndNotOnto : (0 : BitVec 128) ≠ 1 ∧ 0x38#8 ≤ cell eight 0 := by decide

/-- The four clauses of `DECODE`, at lengths 25 and 27, at the first and the last cell, at first values 7 and 8. -/
theorem witness_DecodeAnswersTheBufferOrTheFirstError :
    ((25 : BitVec 8) ≠ 26#8 ∧ (27 : BitVec 8) ≠ 26#8) ∧
    (decLut (cell badFirst 0)).valid = false ∧ (decLut (cell badLast 25)).valid = false ∧
    ((∀ i < 26, (decLut (cell eight i)).valid = true) ∧ (decLut (cell eight 0)).value.toNat > 7) ∧
    (∀ i < 26, (decLut (cell largest i)).valid = true) ∧ (decLut (cell largest 0)).value.toNat ≤ 7 := by decide

theorem witness_DecodeRefusesACharacterOutsideTheAlphabet :
    cell badFirst 0 ∉ (upperRows ++ lowerRows).map Prod.fst ∧ cell badLast 25 ∉ (upperRows ++ lowerRows).map Prod.fst ∧
    ∀ i < 26, cell largest i ∈ (upperRows ++ lowerRows).map Prod.fst := by decide

theorem witness_DecodeRefusesAValueAbove128Bits :
    (∀ i < 26, cell eight i ∈ (upperRows ++ lowerRows).map Prod.fst) ∧ (decLut (cell eight 0)).value.toNat > 7 ∧
    (∀ i < 26, cell largest i ∈ (upperRows ++ lowerRows).map Prod.fst) ∧ (decLut (cell largest 0)).value.toNat ≤ 7 := by decide

theorem witness_DecodedValueIsTheNumberSpelled : Accepted 26 zeros ∧ Accepted 26 largest := by
  unfold Accepted; decide

theorem witness_FailuresCarryNothingAndLeaveNothing : ∃ t, exec (decodeRequest 0) State.reset = .next t := ⟨_, rfl⟩

theorem witness_failed_request : transact 0x31A3830303030303030303030303030303030303030303030303030#218 = ⟨.overflowError, 0⟩ := by decide

theorem witness_range_error_status :
    transact 0x0000000000100000000000000000000000000000000000000000000#218 = ⟨.rangeError, 0⟩ := by decide

theorem witness_CodecRoundTrips : (respond (.decode 26 zeros)) = ⟨.ok, 0⟩ ∧ Canonical largest := by
  unfold Canonical; decide

theorem witness_OperationsChangeNothingElse : ∃ t, exec (.unpack 0) State.reset = .next t := ⟨_, rfl⟩

/-- A block of latency 1 under a plan of one request. -/
def requested : State := planRequests [0] (State.resetWith 1)

theorem witness_StepRunsTheDecodedRequest : requested.ports = [presentRequest 0] ∧ (presentRequest 0).reqValid = true ∧
    (presentRequest 0).rst = false := by decide

/-- The combinational block with `rst` high, the other way to meet the hypothesis. -/
theorem witness_StepRunsTheDecodedRequest_combinational :
    (planFirst { presentRequest 0 with rst := true } (State.resetWith 0)).latency = 0 := by decide

theorem witness_IdleStepPresentsWhatIsDue :
    (∀ p ∈ (State.resetWith 1).ports.head?, p.reqValid = false ∧ (p.rst = false ∨ (State.resetWith 1).latency = 0)) ∧
    (∀ p ∈ (planFirst idlePort (State.resetWith 1)).ports.head?,
      p.reqValid = false ∧ (p.rst = false ∨ (planFirst idlePort (State.resetWith 1)).latency = 0)) := by decide

theorem witness_ResetDropsWhatIsInFlight :
    (planFirst { idlePort with rst := true } (State.resetWith 1)).ports = [{ idlePort with rst := true }] ∧
    (planFirst { idlePort with rst := true } (State.resetWith 1)).latency ≠ 0 ∧
    (planFirst { idlePort with rst := true } (State.resetWith 0)).latency = 0 := by decide

theorem witness_ResponseComesLatencyCyclesLater : requested.ports = presentRequest 0 :: [] ∧
    (presentRequest 0).reqValid = true ∧ NoReset (requested.ports.take (requested.latency + 1)) := by
  unfold NoReset; decide

theorem witness_ResponsesComeInRequestOrder : NoReset (requested.ports.take 1) := by
  unfold NoReset; decide

theorem witness_StepKeepsOnlyTrueAnswers : ∃ t, Good State.reset ∧ step State.reset = .next t :=
  ⟨_, ⟨by simp [State.reset, State.resetWith, Config.resetLatency], by simp [State.reset, State.resetWith],
    by simp [State.reset, State.resetWith]⟩, rfl⟩

theorem witness_ToStringAndParseAreInverse : (2 ^ 48 - 1 < 2 ^ 48 ∧ 2 ^ 80 - 1 < 2 ^ 80) ∧ ScriptName.user 0 ≠ .user 1 ∧
    Accepted (literalLen (List.replicate 26 0x37#8)) (literalCells (List.replicate 26 0x37#8)) := by
  unfold Accepted; decide

theorem witness_ScriptStopsAtTheFirstError :
    (runScript [.toString (.lit (2 ^ 48)) (.lit 0) (.user 0)]).outcome = .stopped .rangeError ∧
    (runScript [.toBytes (.lit 0) (.lit 0) (.user 0)]).outcome = .completed := by decide

theorem witness_WellFormedScriptsRaiseNoScriptError :
    scriptWf [] ([.toString (.lit (2 ^ 64 - 1)) (.lit (2 ^ 128 - 1)) (.user 0), .parse (.ref (.user 0)) (.user 1) (.user 2),
      .toBytes (.ref (.user 1)) (.ref (.user 2)) (.user 3)].flatMap expandLine) = true := by decide

end Sys2Proof.Tests
end

section
/-! PROOFS. The BitPacker (`40_bitpacker.md`): the value, fields and bytes of a ULID (R33), `PACK` (R34) and `UNPACK`
(R35). -/

namespace Sys2Proof.BitPacker

open Sys2Proof.Laws Sys2Proof.Machine

/-! ## Value, fields and bytes of a ULID (R33) -/

theorem toNat_ulidValue (u : Ulid) : (ulidValue u).toNat = u.timestamp.toNat * 2 ^ 80 + u.randomness.toNat :=
  toNat_concat u.timestamp u.randomness

theorem timestamp_slice_ulidValue (u : Ulid) : (ulidValue u).extractLsb' 80 48 = u.timestamp :=
  (slice_append_high u.timestamp u.randomness (j := 0) rfl).trans (slice_all u.timestamp)

theorem randomness_slice_ulidValue (u : Ulid) : (ulidValue u).extractLsb' 0 80 = u.randomness :=
  (slice_append_low u.timestamp u.randomness (by omega)).trans (slice_all u.randomness)

theorem ulidOf_ulidValue (u : Ulid) : ulidOf (ulidValue u) = u := by
  unfold ulidOf
  rw [timestamp_slice_ulidValue, randomness_slice_ulidValue]

theorem ulidValue_ulidOf (v : Buf) : ulidValue (ulidOf v) = v := append_eq_of_slices (m := 48) (n := 80) v

/-- The bytes, read as one big-endian number, are the value. -/
theorem foldl_bufBytes (v : Buf) : (bufBytes v).foldl (fun n b => n * 256 + b.toNat) 0 = v.toNat := by
  have h := horner_bufBytes v
  rwa [horner, List.foldl_map] at h

theorem bufByte_ulidValue_timestamp (u : Ulid) {i : Nat} (hi : i < 6) :
    bufByte (ulidValue u) i = u.timestamp.extractLsb' (40 - 8 * i) 8 :=
  slice_append_high u.timestamp u.randomness (by omega)

theorem bufByte_ulidValue_randomness (u : Ulid) {i : Nat} (hi : i < 10) :
    bufByte (ulidValue u) (6 + i) = u.randomness.extractLsb' (72 - 8 * i) 8 := by
  have hk : 120 - 8 * (6 + i) = 72 - 8 * i := by omega
  unfold bufByte
  rw [hk]
  exact slice_append_low u.timestamp u.randomness (by omega)

/-! ## From a request word to the response -/

/-- What an operation does is let its response enter the pipeline. -/
theorem exec_of_respond {i : Instr} {r : Response} (h : respond i = r) (s : State) :
    exec i s = .next (clockPipe (some r) s) := by
  rw [exec_eq_answer, h]; rfl

theorem decodeRequest_pack_slices {w : ReqWord} (h : w.extractLsb' 216 2 = 0b00#2) :
    decodeRequest w = .pack (w.extractLsb' 128 64) (w.extractLsb' 0 128) := by
  rw [decodeRequest_pack h, tsIn_reqDin, rndIn_reqDin]

theorem decodeRequest_unpack_slices {w : ReqWord} (h : w.extractLsb' 216 2 = 0b01#2) :
    decodeRequest w = .unpack (w.extractLsb' 0 128) := by
  rw [decodeRequest_unpack h, bufIn_reqDin]

/-! ## `PACK` (R34) -/

/-- Cutting an operand to a field loses nothing where the operand is in the field's range. -/
theorem toNat_lowSlice {n l : Nat} {x : BitVec n} (h : x.toNat < 2 ^ l) : (x.extractLsb' 0 l).toNat = x.toNat := by
  rw [BitVec.extractLsb'_toNat, Nat.shiftRight_zero, Nat.mod_eq_of_lt h]

/-- Zero-extension onto `dout` keeps the value. -/
theorem toNat_ulidValue_setWidth (u : Ulid) :
    ((ulidValue u).setWidth 208).toNat = u.timestamp.toNat * 2 ^ 80 + u.randomness.toNat := by
  rw [BitVec.toNat_setWidth_of_le (by omega), toNat_ulidValue]

theorem timestamp_slice_setWidth (u : Ulid) : ((ulidValue u).setWidth 208).extractLsb' 80 48 = u.timestamp :=
  (slice_setWidth (ulidValue u) (by omega)).trans (timestamp_slice_ulidValue u)

theorem randomness_slice_setWidth (u : Ulid) : ((ulidValue u).setWidth 208).extractLsb' 0 80 = u.randomness :=
  (slice_setWidth (ulidValue u) (by omega)).trans (randomness_slice_ulidValue u)

theorem top_slice_setWidth (v : Buf) : (v.setWidth 208).extractLsb' 128 80 = 0 :=
  (slice_setWidth v (by omega)).trans (slice_past v (by omega))

/-! ## `UNPACK` (R35)

Its result lies on `dout` as `PACK`'s operands lie on `din` (R37), so the slices of `dout` are those of `tsIn` and
`rndIn`. -/

theorem respond_unpack (buf : Buf) : respond (.unpack buf) = ⟨.ok, (unpackResponse buf).dout⟩ := rfl

theorem tsIn_unpackResponse (buf : Buf) : tsIn (unpackResponse buf).dout = (buf.extractLsb' 80 48).setWidth 64 :=
  tsIn_concat _ _ _

theorem rndIn_unpackResponse (buf : Buf) : rndIn (unpackResponse buf).dout = (buf.extractLsb' 0 80).setWidth 128 :=
  rndIn_concat _ _ _

/-- The bits of the timestamp's 64 wires, read in place. -/
theorem slice_timestamp_wires (buf : Buf) {k l : Nat} (h : k + l ≤ 64) :
    (unpackResponse buf).dout.extractLsb' (128 + k) l = (buf.extractLsb' 80 48).extractLsb' k l := by
  rw [← slice_slice _ h, ← slice_setWidth (buf.extractLsb' 80 48) h, ← tsIn_unpackResponse buf, tsIn]

/-- The bits of the randomness's 128 wires, read in place. -/
theorem slice_randomness_wires (buf : Buf) {k l : Nat} (h : k + l ≤ 128) :
    (unpackResponse buf).dout.extractLsb' k l = (buf.extractLsb' 0 80).extractLsb' k l := by
  rw [← slice_setWidth (buf.extractLsb' 0 80) h, ← rndIn_unpackResponse buf, rndIn, slice_slice _ h, Nat.zero_add]

/-- `dout[207:192]`, the 16 wires above both fields. -/
theorem top_slice_unpackResponse (buf : Buf) : (unpackResponse buf).dout.extractLsb' 192 16 = 0 :=
  ((slice_append_high _ _ (j := 64) rfl).trans (slice_append_high 0 _ (j := 0) rfl)).trans (slice_all 0)

/-! ## The obligations -/

/-- Settles O10: the value is a concatenation of the fields, and each byte lies within one of them. -/
theorem valueFieldsAndBytesAgree : Obligations.ValueFieldsAndBytesAgree :=
  ⟨fun u => ⟨toNat_ulidValue u, ulidOf_ulidValue u⟩,
    fun v => ⟨ulidValue_ulidOf v, length_bufBytes v, foldl_bufBytes v⟩,
    fun u => ⟨fun _ hi => bufByte_ulidValue_timestamp u hi, fun _ hi => bufByte_ulidValue_randomness u hi⟩⟩

/-- Settles O11: in range, cutting the operands to the fields loses nothing; out of range, the check comes first. -/
theorem packAnswersTheBufferOrRangeError : Obligations.PackAnswersTheBufferOrRangeError := by
  refine ⟨fun w hop => decodeRequest_pack_slices hop, fun ts rnd s hts hrnd => ?_, fun ts rnd s hout => ?_⟩
  · have hvalue := toNat_ulidValue_setWidth ⟨ts.extractLsb' 0 48, rnd.extractLsb' 0 80⟩
    rw [toNat_lowSlice (by omega : ts.toNat < 2 ^ 48), toNat_lowSlice (by omega : rnd.toNat < 2 ^ 80)] at hvalue
    exact ⟨_, exec_of_respond (i := .pack ts rnd) (packResponse_inRange hts hrnd) s, hvalue,
      timestamp_slice_setWidth _, randomness_slice_setWidth _, top_slice_setWidth _⟩
  · exact exec_of_respond (i := .pack ts rnd) (packResponse_outOfRange hout) s

/-- Settles O12: `dout` is read field by field; a slice past a field's own bits is a slice of its zero-extension. -/
theorem unpackAnswersTheFields : Obligations.UnpackAnswersTheFields := by
  refine ⟨fun w hop => decodeRequest_unpack_slices hop, fun buf s =>
    ⟨_, exec_of_respond (respond_unpack buf) s, top_slice_unpackResponse buf, ?_, ?_, ?_, ?_⟩⟩
  · exact (slice_timestamp_wires buf (k := 48) (by omega)).trans (slice_past _ (by omega))
  · exact (slice_timestamp_wires buf (k := 0) (by omega)).trans (slice_all _)
  · exact (slice_randomness_wires buf (by omega)).trans (slice_past _ (by omega))
  · exact (slice_randomness_wires buf (by omega)).trans (slice_all _)

end Sys2Proof.BitPacker
end

section
/-! PROOFS. The base-32 Crockford encoder (`41_base32_encoder.md`): the text `ENCODE` answers (R39), and that it is
canonical (R41). -/

namespace Sys2Proof.Base32Encoder

open Sys2Proof.Machine

theorem decodeRequest_encode_slice {w : ReqWord} (h : w.extractLsb' 216 2 = 0b10#2) :
    decodeRequest w = .encode (w.extractLsb' 0 128) := by
  rw [decodeRequest_encode h, bufIn_reqDin]

/-- `ENCODE` makes no check (R39): every buffer is answered with status OK. -/
theorem respond_encode (buf : Buf) : respond (.encode buf) = ⟨.ok, (encodeResponse buf).dout⟩ := rfl

/-- Every character of the text is one of the 32 of the alphabet (R41). -/
theorem cell_encodeResponse_mem (buf : Buf) {i : Nat} (hi : i < 26) : cell (encodeResponse buf).dout i ∈ encTable := by
  rw [cell_encodeResponse buf hi]
  exact encLut_mem _

/-- The first character is at most '7', because the first group holds the two padding zeros (R38, R41). -/
theorem cell_zero_encodeResponse_le (buf : Buf) : cell (encodeResponse buf).dout 0 ≤ 0x37#8 := by
  rw [cell_encodeResponse buf (by omega), encLut_le_seven]
  exact group_zero_le buf

theorem canonical_encodeResponse (buf : Buf) : Canonical (encodeResponse buf).dout :=
  ⟨fun _ hi => cell_encodeResponse_mem buf hi, cell_zero_encodeResponse_le buf⟩

/-! ## The obligations -/

/-- Settles O17: a cell of the joined text is the table's code for the group at its place. -/
theorem encodeAnswersTheText : Obligations.EncodeAnswersTheText :=
  ⟨fun _ hop => decodeRequest_encode_slice hop, fun buf s =>
    ⟨_, BitPacker.exec_of_respond (respond_encode buf) s, fun _ hi => cell_encodeResponse buf hi⟩⟩

/-- Settles O19: each cell is an entry of the table, and the first group is at most 7. -/
theorem encoderOutputIsCanonical : Obligations.EncoderOutputIsCanonical := canonical_encodeResponse

end Sys2Proof.Base32Encoder
end

section
/-! PROOFS. The base-32 Crockford decoder (`42_base32_decoder.md`): the buffer `DECODE` answers (R43, R44) and the three
errors it answers instead (R45 to R47). -/

namespace Sys2Proof.Base32Decoder

open Sys2Proof.Laws Sys2Proof.Machine

theorem decodeRequest_decode_slices {w : ReqWord} (h : w.extractLsb' 216 2 = 0b11#2) :
    decodeRequest w = .decode (w.extractLsb' 208 8) (w.extractLsb' 0 208) := decodeRequest_decode h

/-! ## The three errors (R45, R46, R47) -/

theorem exec_decode_length {len : BitVec 8} (h : len ≠ 26#8) (t : Text) (s : State) :
    exec (.decode len t) s = .next (clockPipe (some ⟨.invalidLengthError, 0⟩) s) :=
  BitPacker.exec_of_respond (i := .decode len t) (decodeTextResponse_length t h) s

theorem exec_decode_character {t : Text} (h : badCharacter t = true) (s : State) :
    exec (.decode 26 t) s = .next (clockPipe (some ⟨.invalidCharacterError, 0⟩) s) :=
  BitPacker.exec_of_respond (i := .decode 26 t) (decodeTextResponse_character h) s

theorem exec_decode_overflow {t : Text} (hc : badCharacter t = false) (hf : firstAboveSeven t = true) (s : State) :
    exec (.decode 26 t) s = .next (clockPipe (some ⟨.overflowError, 0⟩) s) :=
  BitPacker.exec_of_respond (i := .decode 26 t) (decodeTextResponse_overflow hc hf) s

theorem firstAboveSeven_false_iff (t : Text) : firstAboveSeven t = false ↔ (decLut (cell t 0)).value.toNat ≤ 7 := by
  rw [← Bool.not_eq_true, firstAboveSeven_iff, not_lt]

/-- The table's valid entries are the 54 codes, so the check asks that every cell is one of them (R46). -/
theorem badCharacter_false_iff_mem (t : Text) :
    badCharacter t = false ↔ ∀ i < 26, cell t i ∈ (upperRows ++ lowerRows).map Prod.fst := by
  simp only [badCharacter_false_iff, decLut_valid_iff]

theorem badCharacter_of_not_mem {t : Text} (h : ∃ i < 26, cell t i ∉ (upperRows ++ lowerRows).map Prod.fst) :
    badCharacter t = true := by
  obtain ⟨i, hi, hout⟩ := h
  rw [← Bool.not_eq_false, badCharacter_false_iff_mem]
  exact fun hall => hout (hall i hi)

/-! ## The number a text spells (R43, R47) -/

/-- `Y = v[0] ‖ ... ‖ v[25]` as a sum of powers of 32. -/
theorem toNat_joinGroups_textValues (t : Text) :
    (joinGroups (textValues t)).toNat = ∑ i ∈ Finset.range 26, (decLut (cell t i)).value.toNat * 32 ^ (25 - i) := by
  rw [toNat_joinGroups (length_textValues t), textValues, cells, List.map_map, List.map_map, horner_sum]
  rfl

theorem value_gt_seven_iff_sum (t : Text) : (decLut (cell t 0)).value.toNat > 7 ↔
    (∑ i ∈ Finset.range 26, (decLut (cell t i)).value.toNat * 32 ^ (25 - i)) > 2 ^ 128 - 1 := by
  have h := joinGroups_textValues_lt_iff t
  rw [toNat_joinGroups_textValues, firstAboveSeven_false_iff] at h
  omega

theorem symbol_gt_seven_iff_high_bits : ∀ v : Symbol, v.toNat > 7 ↔ v.extractLsb' 3 2 ≠ 0 := by decide

/-! ## The buffer on `dout` (R44) -/

theorem group_textBuf {t : Text} (hf : firstAboveSeven t = false) {i : Nat} (hi : i < 26) :
    group (textBuf t) i = (decLut (cell t i)).value := by
  have h := congrArg (·[i]?) (groups_textBuf hf)
  simpa [groups, textValues, cells, hi] using h

/-- A group that lies within the value is a slice of the value as it lies on `dout`. -/
theorem slice_dout_eq_group (v : Buf) (i : Nat) : (v.setWidth 208).extractLsb' (125 - 5 * i) 5 = group v i :=
  (slice_setWidth v (by omega)).trans (slice_setWidth v (by omega)).symm

/-- The top three bits of a value are the low three of its first group (R38). -/
theorem top_three_bits_dout (v : Buf) : (v.setWidth 208).extractLsb' 125 3 = (group v 0).extractLsb' 0 3 := by
  rw [← slice_dout_eq_group v 0, slice_slice _ (by omega)]

/-! ## The obligations -/

/-- Settles O20: each error has its check; where all three pass, the groups of the buffer are the values of the cells. -/
theorem decodeAnswersTheBufferOrTheFirstError : Obligations.DecodeAnswersTheBufferOrTheFirstError := by
  refine ⟨fun w hop => decodeRequest_decode_slices hop, fun len t s => ⟨fun hlen => exec_decode_length hlen t s, ?_, ?_, ?_⟩⟩
  · rintro rfl hbad
    exact exec_decode_character ((badCharacter_iff t).mpr hbad) s
  · rintro rfl hvalid habove
    exact exec_decode_overflow ((badCharacter_false_iff t).mpr hvalid) ((firstAboveSeven_iff t).mpr habove) s
  · rintro rfl hvalid hfirst
    have hc := (badCharacter_false_iff t).mpr hvalid
    have hf := (firstAboveSeven_false_iff t).mpr hfirst
    refine ⟨_, BitPacker.exec_of_respond (i := .decode 26 t) (decodeTextResponse_ok hc hf) s,
      BitPacker.top_slice_setWidth _, ?_, fun i _ hi => ?_⟩
    · rw [top_three_bits_dout, group_textBuf hf (by omega)]
    · rw [slice_dout_eq_group, group_textBuf hf hi]

/-- Settles O23: the check of the length is the first (R63), and it does not read the cells. -/
theorem decodeRefusesEveryLengthBut26 : Obligations.DecodeRefusesEveryLengthBut26 :=
  fun _ t s hlen => exec_decode_length hlen t s

/-- Settles O24: a cell outside the 54 codes has no valid entry; where there is none, the response is `OverflowError`
or OK. -/
theorem decodeRefusesACharacterOutsideTheAlphabet : Obligations.DecodeRefusesACharacterOutsideTheAlphabet := by
  refine fun t => ⟨fun hout s => exec_decode_character (badCharacter_of_not_mem hout) s, fun hall => ?_⟩
  have hc := (badCharacter_false_iff_mem t).mpr hall
  change (decodeTextResponse 26 t).status ≠ _
  cases hf : firstAboveSeven t with
  | true => rw [decodeTextResponse_overflow hc hf]; nofun
  | false => rw [decodeTextResponse_ok hc hf]; nofun

/-- Settles O25: the first value is the top digit of the number in base 32, with 125 bits below it. -/
theorem decodeRefusesAValueAbove128Bits : Obligations.DecodeRefusesAValueAbove128Bits := by
  intro t hall
  have hc := (badCharacter_false_iff_mem t).mpr hall
  refine ⟨symbol_gt_seven_iff_high_bits _, value_gt_seven_iff_sum t, fun habove s => ?_, fun hfirst => ?_⟩
  · exact exec_decode_overflow hc ((firstAboveSeven_iff t).mpr habove) s
  · exact congrArg Response.status (decodeTextResponse_ok hc ((firstAboveSeven_false_iff t).mpr hfirst))

end Sys2Proof.Base32Decoder
end

section
/-! PROOFS. The contracts (`43_contracts_and_order.md`): `PACK` and `UNPACK` undo one another (R50), and so do `ENCODE`
and `DECODE` up to the case of the text (R51). -/

namespace Sys2Proof.Contracts

open Sys2Proof.Laws Sys2Proof.Machine Sys2Proof.BitPacker

/-! ## `PACK` and `UNPACK` (R50) -/

/-- An operand in a field's range is the zero-extension of its low bits. -/
theorem setWidth_lowSlice {n l : Nat} {x : BitVec n} (h : x.toNat < 2 ^ l) : (x.extractLsb' 0 l).setWidth n = x := by
  apply BitVec.eq_of_toNat_eq
  rw [BitVec.toNat_setWidth, toNat_lowSlice h, Nat.mod_eq_of_lt x.isLt]

theorem toNat_setWidth_lt {n m : Nat} (x : BitVec n) : (x.setWidth m).toNat < 2 ^ n :=
  lt_of_le_of_lt ((BitVec.toNat_setWidth m x).trans_le (Nat.mod_le _ _)) x.isLt

/-- `PACK` of the zero-extended fields of a ULID answers its value. -/
theorem respond_pack_fields (u : Ulid) :
    respond (.pack (u.timestamp.setWidth 64) (u.randomness.setWidth 128)) = ⟨.ok, (ulidValue u).setWidth 208⟩ := by
  have hts := toNat_setWidth_lt (m := 64) u.timestamp
  have hrnd := toNat_setWidth_lt (m := 128) u.randomness
  refine (packResponse_inRange (Nat.le_sub_one_of_lt hts) (Nat.le_sub_one_of_lt hrnd)).trans ?_
  rw [slice_setWidth _ (by omega), slice_setWidth _ (by omega), slice_all, slice_all]

/-- `UNPACK` of the value of a ULID answers its zero-extended fields. -/
theorem respond_unpack_ulidValue (u : Ulid) :
    respond (.unpack (ulidValue u)) =
      ⟨.ok, (0 : BitVec 16) ++ u.timestamp.setWidth 64 ++ u.randomness.setWidth 128⟩ := by
  change unpackResponse (ulidValue u) = _
  rw [unpackResponse, ulidOf_ulidValue]
  rfl

/-! ## `ENCODE` and `DECODE` (R51) -/

theorem respond_decode_encode (b : Buf) : respond (.decode 26 (respond (.encode b)).dout) = ⟨.ok, b.setWidth 208⟩ := by
  refine (decodeTextResponse_ok (badCharacter_encodeResponse b) (firstAboveSeven_encodeResponse b)).trans ?_
  rw [textBuf_encodeResponse]

/-- The inversion of an accepted `DECODE`: all three checks passed, and the result is the buffer the text spells. -/
theorem checks_of_decode_ok {len : BitVec 8} {t : Text} {d : Dout} (h : respond (.decode len t) = ⟨.ok, d⟩) :
    badCharacter t = false ∧ firstAboveSeven t = false ∧ d = (textBuf t).setWidth 208 := by
  change decodeTextResponse len t = _ at h
  obtain ⟨_, he⟩ | ⟨_, _, he⟩ | ⟨_, _, _, he⟩ | ⟨_, hc, hf, hok⟩ := decodeTextResponse_cases len t
  · exact absurd (he.symm.trans h) nofun
  · exact absurd (he.symm.trans h) nofun
  · exact absurd (he.symm.trans h) nofun
  · exact ⟨hc, hf, (Response.mk.inj (h.symm.trans hok)).2⟩

theorem cell_canonicalText (t : Text) {i : Nat} (hi : i < 26) : cell (canonicalText t) i = upperCase (cell t i) := by
  refine (cell_joinCells (by simp [length_cells]) hi).trans ?_
  simp [cells]

/-- A canonical text is in upper case already. -/
theorem canonicalText_of_canonical {t : Text} (h : Canonical t) : canonicalText t = t := by
  obtain ⟨hmem, -⟩ := h
  have hcell : ∀ c ∈ cells t, upperCase c = c :=
    (forall_cells_iff t).mpr fun i hi => (mem_encTable _ (hmem i hi)).2
  rw [canonicalText, List.map_congr_left hcell, List.map_id', joinCells_cells]

/-- A canonical text passes the checks of the characters and of the first value. -/
theorem checks_of_canonical {t : Text} (h : Canonical t) : badCharacter t = false ∧ firstAboveSeven t = false := by
  obtain ⟨hmem, hfirst⟩ := h
  have hvalid : ∀ i < 26, (decLut (cell t i)).valid = true := fun i hi => (mem_encTable _ (hmem i hi)).1
  refine ⟨(badCharacter_false_iff t).mpr hvalid, (Base32Decoder.firstAboveSeven_false_iff t).mpr ?_⟩
  have hsym : encLut (decLut (cell t 0)).value = cell t 0 :=
    (encLut_decLut _ (hvalid 0 (by omega))).trans (mem_encTable _ (hmem 0 (by omega))).2
  rwa [← encLut_le_seven, hsym]

/-! ## The obligations -/

/-- Settles O14: in-range operands are the zero-extended fields of a ULID, and a buffer is the value of one. -/
theorem packAndUnpackAreInverse : Obligations.PackAndUnpackAreInverse := by
  refine ⟨fun t r ht hr => ?_, fun b => ?_⟩
  · have hpack := respond_pack_fields ⟨t.extractLsb' 0 48, r.extractLsb' 0 80⟩
    have hunpack := respond_unpack_ulidValue ⟨t.extractLsb' 0 48, r.extractLsb' 0 80⟩
    rw [setWidth_lowSlice ht, setWidth_lowSlice hr] at hpack hunpack
    exact ⟨_, hpack, hunpack⟩
  · have hpack := respond_pack_fields (ulidOf b)
    have hunpack := respond_unpack_ulidValue (ulidOf b)
    rw [ulidValue_ulidOf] at hpack hunpack
    exact ⟨_, _, toNat_setWidth_lt _, toNat_setWidth_lt _, hunpack, hpack⟩

/-- Settles O32: the encoder writes the buffer of an accepted text back in upper case, which a canonical text is in
already. -/
theorem codecRoundTrips : Obligations.CodecRoundTrips := by
  refine ⟨respond_decode_encode, fun len t d hd => ⟨rfl, fun i hi => ?_⟩, fun t ht => ?_⟩
  · obtain ⟨hc, hf, rfl⟩ := checks_of_decode_ok hd
    rw [slice_setWidth _ (by omega), slice_all]
    change cell (encodeResponse (textBuf t)).dout i = upperCase (cell t i)
    rw [encode_textBuf hc hf, cell_canonicalText t hi]
  · obtain ⟨hc, hf⟩ := checks_of_canonical ht
    have hencode : (encodeResponse (textBuf t)).dout = t :=
      (encode_textBuf hc hf).trans (canonicalText_of_canonical ht)
    exact ⟨textBuf t, decodeTextResponse_ok hc hf, congrArg (Response.mk .ok) hencode⟩

end Sys2Proof.Contracts
end

section
/-! PROOFS. The errors (`60_exceptions.md`): the cause of each (R58 to R60, R62), the operation that alone raises it, the
order of the checks (R63), and that an error carries nothing on `dout` (R61). -/

namespace Sys2Proof.Exceptions

open Sys2Proof.Laws Sys2Proof.Machine

/-! ## The status of `PACK` (R58) -/

theorem pack_status (ts : BitVec 64) (rnd : BitVec 128) : (packResponse ts rnd).status =
    if ts.toNat > 2 ^ 48 - 1 ∨ rnd.toNat > 2 ^ 80 - 1 then .rangeError else .ok := by
  split
  next hout => rw [packResponse_outOfRange hout]
  next hin =>
    obtain ⟨hts, hrnd⟩ := not_or.mp hin
    rw [packResponse_inRange (not_lt.mp hts) (not_lt.mp hrnd)]

theorem pack_status_eq_rangeError_iff (ts : BitVec 64) (rnd : BitVec 128) :
    (packResponse ts rnd).status = .rangeError ↔ ts.toNat > 2 ^ 48 - 1 ∨ rnd.toNat > 2 ^ 80 - 1 := by
  rw [pack_status]
  split
  next hout => exact iff_of_true rfl hout
  next hin => exact iff_of_false nofun hin

/-- `PACK` makes one check (R63). -/
theorem pack_status_cases (ts : BitVec 64) (rnd : BitVec 128) :
    (packResponse ts rnd).status = .ok ∨ (packResponse ts rnd).status = .rangeError := by
  rw [pack_status]
  split
  · exact .inr rfl
  · exact .inl rfl

/-! ## The status of `DECODE` (R59, R60, R62) -/

theorem decode_status_ne_rangeError (len : BitVec 8) (t : Text) :
    (decodeTextResponse len t).status ≠ .rangeError := by
  obtain ⟨_, h⟩ | ⟨_, _, h⟩ | ⟨_, _, _, h⟩ | ⟨_, _, _, h⟩ := decodeTextResponse_cases len t
  all_goals rw [h]; nofun

theorem decode_status_eq_invalidLength_iff (len : BitVec 8) (t : Text) :
    (decodeTextResponse len t).status = .invalidLengthError ↔ len ≠ 26#8 := by
  obtain ⟨hl, h⟩ | ⟨hl, _, h⟩ | ⟨hl, _, _, h⟩ | ⟨hl, _, _, h⟩ := decodeTextResponse_cases len t
  all_goals rw [h]; simp [hl]

theorem decode_status_eq_invalidCharacter_iff (len : BitVec 8) (t : Text) :
    (decodeTextResponse len t).status = .invalidCharacterError ↔ len = 26#8 ∧ badCharacter t = true := by
  obtain ⟨hl, h⟩ | ⟨hl, hc, h⟩ | ⟨hl, hc, _, h⟩ | ⟨hl, hc, _, h⟩ := decodeTextResponse_cases len t
  · rw [h]; simp [hl]
  all_goals rw [h]; simp [hl, hc]

theorem decode_status_eq_overflow_iff (len : BitVec 8) (t : Text) :
    (decodeTextResponse len t).status = .overflowError ↔
      len = 26#8 ∧ badCharacter t = false ∧ firstAboveSeven t = true := by
  obtain ⟨hl, h⟩ | ⟨hl, hc, h⟩ | ⟨hl, hc, hf, h⟩ | ⟨hl, hc, hf, h⟩ := decodeTextResponse_cases len t
  · rw [h]; simp [hl]
  · rw [h]; simp [hl, hc]
  all_goals rw [h]; simp [hl, hc, hf]

/-! ## The status of a request word -/

/-- One of the four operations answers, each to its own code (R24). -/
theorem transact_cases (w : ReqWord) :
    (reqOp w = 0b00#2 ∧ transact w = packResponse (tsIn (reqDin w)) (rndIn (reqDin w))) ∨
    (reqOp w = 0b01#2 ∧ transact w = unpackResponse (bufIn (reqDin w))) ∨
    (reqOp w = 0b10#2 ∧ transact w = encodeResponse (bufIn (reqDin w))) ∨
    (reqOp w = 0b11#2 ∧ transact w = decodeTextResponse (reqLen w) (reqDin w)) := by
  obtain h | h | h | h := reqOp_cases w
  · exact .inl ⟨h, congrArg respond (decodeRequest_pack h)⟩
  · exact .inr (.inl ⟨h, congrArg respond (decodeRequest_unpack h)⟩)
  · exact .inr (.inr (.inl ⟨h, congrArg respond (decodeRequest_encode h)⟩))
  · exact .inr (.inr (.inr ⟨h, congrArg respond (decodeRequest_decode h)⟩))

/-- `RangeError` is raised by `PACK` alone (R58). -/
theorem transact_status_eq_rangeError_iff (w : ReqWord) : (transact w).status = .rangeError ↔
    reqOp w = 0b00#2 ∧ (packResponse (tsIn (reqDin w)) (rndIn (reqDin w))).status = .rangeError := by
  obtain ⟨hop, h⟩ | ⟨hop, h⟩ | ⟨hop, h⟩ | ⟨hop, h⟩ := transact_cases w
  · simp [h, hop]
  · simp [h, hop, unpackResponse, returnValue]
  · simp [h, hop, encodeResponse_status]
  · simp [h, hop, decode_status_ne_rangeError]

/-- Every other error is raised by `DECODE` alone (R59, R60, R62). -/
theorem transact_status_eq_iff_decode {e : Status} (hok : e ≠ .ok) (hrange : e ≠ .rangeError) (w : ReqWord) :
    (transact w).status = e ↔
      reqOp w = 0b11#2 ∧ (decodeTextResponse (reqLen w) (reqDin w)).status = e := by
  obtain ⟨hop, h⟩ | ⟨hop, h⟩ | ⟨hop, h⟩ | ⟨hop, h⟩ := transact_cases w
  · obtain hst | hst := pack_status_cases (tsIn (reqDin w)) (rndIn (reqDin w))
    · simp [h, hop, hst, hok.symm]
    · simp [h, hop, hst, hrange.symm]
  · simp [h, hop, unpackResponse, returnValue, hok.symm]
  · simp [h, hop, encodeResponse_status, hok.symm]
  · simp [h, hop]

/-- An error carries nothing on `dout` (R61). -/
theorem respond_dout_of_error (i : Instr) : (respond i).status ≠ .ok → (respond i).dout = 0 := by
  cases i with
  | pack ts rnd =>
    change (packResponse ts rnd).status ≠ .ok → (packResponse ts rnd).dout = 0
    obtain hst | hst := pack_status_cases ts rnd
    · exact absurd hst
    · rw [packResponse_outOfRange ((pack_status_eq_rangeError_iff ts rnd).mp hst)]
      exact fun _ => rfl
  | unpack buf => exact absurd rfl
  | encode buf => exact absurd (encodeResponse_status buf)
  | decode len t =>
    change (decodeTextResponse len t).status ≠ .ok → (decodeTextResponse len t).dout = 0
    obtain ⟨_, h⟩ | ⟨_, _, h⟩ | ⟨_, _, _, h⟩ | ⟨_, _, _, h⟩ := decodeTextResponse_cases len t
    all_goals rw [h]; simp

theorem transact_dout_of_error (w : ReqWord) : (transact w).status ≠ .ok → (transact w).dout = 0 :=
  respond_dout_of_error (decodeRequest w)

/-- A cell of the text lies on `din` where it lies in the request word (R22, R25). -/
theorem cell_reqDin (w : ReqWord) (i : Nat) : cell (reqDin w) i = w.extractLsb' (200 - 8 * i) 8 :=
  (slice_slice w (by omega)).trans (by rw [Nat.zero_add])

/-! ## The obligations -/

/-- Settles O22: the checks of `DECODE` one by one, and `PACK`'s single check. -/
theorem checksAreMadeInOrder : Obligations.ChecksAreMadeInOrder := by
  refine ⟨fun len t => ⟨(decode_status_eq_invalidLength_iff len t).mpr, fun hl hbad => ?_,
    fun hl hvalid habove => ?_, ?_⟩, pack_status⟩
  · exact (decode_status_eq_invalidCharacter_iff len t).mpr ⟨hl, (badCharacter_iff t).mpr hbad⟩
  · exact (decode_status_eq_overflow_iff len t).mpr
      ⟨hl, (badCharacter_false_iff t).mpr hvalid, (firstAboveSeven_iff t).mpr habove⟩
  · rintro rfl hvalid hfirst
    exact congrArg Response.status (decodeTextResponse_ok ((badCharacter_false_iff t).mpr hvalid)
      ((Base32Decoder.firstAboveSeven_false_iff t).mpr hfirst))

/-- Settles O29: only `PACK` raises it, by its one check; the block keeps nothing that a later request would read. -/
theorem rangeErrorExactlyWhenPackIsOutOfRange : Obligations.RangeErrorExactlyWhenPackIsOutOfRange := by
  refine ⟨fun w => ⟨?_, fun h => ?_⟩, fun i s => BitPacker.exec_of_respond rfl _⟩
  · rw [transact_status_eq_rangeError_iff, pack_status_eq_rangeError_iff, tsIn_reqDin, rndIn_reqDin]
    rfl
  · exact transact_dout_of_error w (by rw [h]; nofun)

/-- Settles O30: only `DECODE` raises the three, and each of its responses names the one check that failed. -/
theorem decodeErrorsExactlyWhenTheirCauseHolds : Obligations.DecodeErrorsExactlyWhenTheirCauseHolds := by
  refine fun w => ⟨?_, ?_, ?_, transact_dout_of_error w⟩
  · rw [transact_status_eq_iff_decode (by decide) (by decide), decode_status_eq_invalidLength_iff]
    rfl
  · rw [transact_status_eq_iff_decode (by decide) (by decide), decode_status_eq_invalidCharacter_iff, badCharacter_iff]
    simp only [cell_reqDin]
    rfl
  · rw [transact_status_eq_iff_decode (by decide) (by decide), decode_status_eq_overflow_iff,
      badCharacter_false_iff, firstAboveSeven_iff]
    simp only [cell_reqDin]
    rfl

end Sys2Proof.Exceptions
end

section
/-! PROOFS. The request word (`30_encoding.md` sections 1 to 3): its fields and its number (R22), the decoder against the
encoder and against the operation table (R24, R25), the ignored bits (R27); and the response word (R23, R57). -/

namespace Sys2Proof.Encoding

open Sys2Proof.Laws Sys2Proof.Machine

/-! ## A request word joined from its fields (R22, R25) -/

theorem toNat_joinRequest (op : BitVec 2) (len : BitVec 8) (din : Din) :
    (joinRequest op len din).toNat = op.toNat * 2 ^ 216 + len.toNat * 2 ^ 208 + din.toNat := by
  have hupper : (op ++ len).toNat = op.toNat * 2 ^ 8 + len.toNat := toNat_concat op len
  have hword : (joinRequest op len din).toNat = (op ++ len).toNat * 2 ^ 208 + din.toNat := toNat_concat (op ++ len) din
  rw [hword, hupper]
  ring

theorem decodeRequest_join_pack (len : BitVec 8) (din : Din) :
    decodeRequest (joinRequest 0b00#2 len din) = .pack (tsIn din) (rndIn din) := by
  rw [decodeRequest_pack (reqOp_joinRequest _ _ _), reqDin_joinRequest]

theorem decodeRequest_join_unpack (len : BitVec 8) (din : Din) :
    decodeRequest (joinRequest 0b01#2 len din) = .unpack (bufIn din) := by
  rw [decodeRequest_unpack (reqOp_joinRequest _ _ _), reqDin_joinRequest]

theorem decodeRequest_join_encode (len : BitVec 8) (din : Din) :
    decodeRequest (joinRequest 0b10#2 len din) = .encode (bufIn din) := by
  rw [decodeRequest_encode (reqOp_joinRequest _ _ _), reqDin_joinRequest]

theorem decodeRequest_join_decode (len : BitVec 8) (din : Din) :
    decodeRequest (joinRequest 0b11#2 len din) = .decode len din := by
  rw [decodeRequest_decode (reqOp_joinRequest _ _ _), reqLen_joinRequest, reqDin_joinRequest]

/-! ## The decoder undoes the encoder -/

theorem decodeRequest_encodeRequest (i : Instr) : decodeRequest (encodeRequest i) = i := by
  cases i with
  | pack ts rnd => exact (decodeRequest_join_pack _ _).trans (congrArg₂ _ (tsIn_concat _ _ _) (rndIn_concat _ _ _))
  | unpack buf => exact (decodeRequest_join_unpack _ _).trans (congrArg _ (bufIn_concat _ _))
  | encode buf => exact (decodeRequest_join_encode _ _).trans (congrArg _ (bufIn_concat _ _))
  | decode len text => exact decodeRequest_join_decode _ _

theorem transact_encodeRequest (i : Instr) : transact (encodeRequest i) = respond i :=
  congrArg respond (decodeRequest_encodeRequest i)

/-- Every word of 218 bits, given as a number, is a request. -/
theorem decodeNumber_toNat (w : ReqWord) : decodeNumber w.toNat = .ok (decodeRequest w) := by
  rw [decodeNumber, if_pos w.isLt, BitVec.ofNat_toNat, BitVec.setWidth_eq]

/-! ## The rows of the operation table -/

/-- Under the mask of the table's rows a word is its `op` field, and nothing else. -/
theorem and_opMask (w : ReqWord) : w &&& (0b11#2 ++ 0#216) = reqOp w ++ 0#216 := by
  have hop : reqOp w &&& 0b11#2 = reqOp w := BitVec.and_allOnes
  have hword : reqOp w ++ w.extractLsb' 0 216 = w := append_eq_of_slices (m := 2) (n := 216) w
  have hsplit := BitVec.and_append (x₁ := reqOp w) (x₂ := 0b11#2) (y₁ := w.extractLsb' 0 216) (y₂ := 0#216)
  rwa [hop, BitVec.and_zero, hword] at hsplit

theorem mask_pattern_of_row :
    ∀ row ∈ opcodeTable, row.mask = 0b11#2 ++ 0#216 ∧ row.pattern = opCode row.operation ++ 0#216 := by decide

theorem operationOf_eq_iff (op : BitVec 2) (o : Operation) : operationOf op = o ↔ op = opCode o :=
  ⟨fun h => by rw [← h, opCode_operationOf], fun h => by rw [h, operationOf_opCode]⟩

theorem row_matches_iff {row : OpRow} (hrow : row ∈ opcodeTable) (w : ReqWord) :
    w &&& row.mask = row.pattern ↔ (decodeRequest w).operation = row.operation := by
  obtain ⟨hmask, hpattern⟩ := mask_pattern_of_row row hrow
  rw [hmask, hpattern, decodeRequest_operation, operationOf_eq_iff, and_opMask]
  exact BitVec.append_left_inj 0#216

theorem operations_of_rows_distinct : opcodeTable.Pairwise fun a b => a.operation ≠ b.operation := by decide

/-! ## The response word -/

theorem decodeResponse_responseWord (r : Response) : decodeResponse (responseWord r) = .ok r := by
  rw [decodeResponse, status_of_responseWord, dout_of_responseWord, statusOf_statusCode]

theorem toNat_responseWord (r : Response) :
    (responseWord r).toNat = (statusCode r.status).toNat * 2 ^ 208 + r.dout.toNat :=
  toNat_concat (statusCode r.status) r.dout

theorem statusOf_above_four : ∀ c : BitVec 3, 4 < c.toNat → statusOf c = none := by decide

theorem statusCode_le_four (st : Status) : (statusCode st).toNat ≤ 4 := by cases st <;> decide

theorem decodeResponse_above_four {w : RspWord} (h : 4 < (w.extractLsb' 208 3).toNat) :
    decodeResponse w = .error (.neverProduced (w.extractLsb' 208 3)) := by
  rw [decodeResponse, statusOf_above_four _ h]

/-! ## The obligations -/

/-- Settles O2: the decoder reads each operand back from where the encoder put it, one lemma per operation. -/
theorem encodedRequestDecodesToItself : Obligations.EncodedRequestDecodesToItself := by
  refine fun i _ => ⟨decodeRequest_encodeRequest i, ?_⟩
  rw [decodeNumber_toNat, decodeRequest_encodeRequest]

/-- Settles O1: the number by concatenation, the fields by slicing. -/
theorem requestWordIsOpLenDin : Obligations.RequestWordIsOpLenDin :=
  ⟨fun op len din => ⟨toNat_joinRequest op len din, reqOp_joinRequest op len din, reqLen_joinRequest op len din,
    reqDin_joinRequest op len din⟩, joinRequest_fields⟩

/-- Settles O3: the four codes are all there are. -/
theorem everyRequestWordSelectsAnOperation : Obligations.EveryRequestWordSelectsAnOperation := by
  intro w
  obtain h | h | h | h := reqOp_cases w
  · exact .inl ⟨h, BitPacker.decodeRequest_pack_slices h⟩
  · exact .inr (.inl ⟨h, BitPacker.decodeRequest_unpack_slices h⟩)
  · exact .inr (.inr (.inl ⟨h, Base32Encoder.decodeRequest_encode_slice h⟩))
  · exact .inr (.inr (.inr ⟨h, Base32Decoder.decodeRequest_decode_slices h⟩))

/-- Settles O4: a row's mask keeps `op` alone, and the rows have the codes of the four operations. -/
theorem tableRowsSelectWhatTheDecoderSelects : Obligations.TableRowsSelectWhatTheDecoderSelects := by
  refine ⟨fun w row hrow => row_matches_iff hrow w, fun o => by cases o <;> decide, ?_⟩
  refine operations_of_rows_distinct.imp_of_mem fun ha hb hne w => ?_
  rintro ⟨hmatchA, hmatchB⟩
  exact hne (((row_matches_iff ha w).mp hmatchA).symm.trans ((row_matches_iff hb w).mp hmatchB))

/-- Settles O5: the ignored bits are in no operand; a text of another length is refused before its cells are read. -/
theorem ignoredBitsDoNotChangeTheResponse : Obligations.IgnoredBitsDoNotChangeTheResponse := by
  refine ⟨fun l l' x x' ts rnd => congrArg respond ?_,
    fun l l' x x' b => ⟨congrArg respond ?_, congrArg respond ?_⟩, fun l d d' hlen => ?_⟩
  · simp only [decodeRequest_join_pack, tsIn_concat, rndIn_concat]
  · simp only [decodeRequest_join_unpack, bufIn_concat]
  · simp only [decodeRequest_join_encode, bufIn_concat]
  · simp only [transact, decodeRequest_join_decode, respond, decodeTextResponse_length _ hlen]

/-- Settles O6: five written-out words, evaluated. -/
theorem writtenRequestWordsDecode : Obligations.WrittenRequestWordsDecode :=
  ⟨by decide, by decide, by decide, by decide, by decide⟩

/-- Settles O7: the response word is read back field by field, and no status has a code above 4. -/
theorem responseWordReadsBack : Obligations.ResponseWordReadsBack := by
  refine ⟨fun r => ⟨decodeResponse_responseWord r, toNat_responseWord r⟩, by decide,
    fun w => decodeResponse_above_four, fun w => ?_⟩
  rw [transactWord, status_of_responseWord]
  exact statusCode_le_four _

end Sys2Proof.Encoding
end

section
/-! PROOFS. The clocked machine (`70_reset_and_hazards.md` sections 1, 2, 5 and 8): what a cycle asks of the block, what
the pipeline does with it (R75), reset (R71), that no run stops (R74), and the invariant of the good states. -/

namespace Sys2Proof.Pipeline

open Sys2Proof.Machine

/-! ## What a cycle's ports ask (R71, R75)

`rst` is not looked at where it is low, and not with `LATENCY` 0. -/

theorem portEvent_of_no_reset {latency : Nat} {p : PortIn} (h : p.rst = false ∨ latency = 0) :
    portEvent latency p =
      if p.reqValid = true then .request (joinRequest p.reqOp p.reqLen p.reqDin) else .idle := by
  have hreset : ¬ (p.rst = true ∧ latency ≠ 0) := by
    rintro ⟨hrst, hlatency⟩
    obtain h | h := h
    · exact absurd (hrst.symm.trans h) nofun
    · exact hlatency h
  rw [portEvent, if_neg hreset]

theorem portEvent_of_reset {latency : Nat} {p : PortIn} (hrst : p.rst = true) (hlatency : latency ≠ 0) :
    portEvent latency p = .reset := if_pos ⟨hrst, hlatency⟩

theorem nextEvent_cons {s : State} {p : PortIn} {ps : List PortIn} (h : s.ports = p :: ps) :
    nextEvent s = portEvent s.latency p := by
  rw [nextEvent, h]

theorem nextEvent_eq_idle {s : State}
    (h : ∀ p ∈ s.ports.head?, p.reqValid = false ∧ (p.rst = false ∨ s.latency = 0)) : nextEvent s = .idle := by
  cases hports : s.ports with
  | nil => rw [nextEvent, hports]
  | cons p ps =>
    obtain ⟨hvalid, hrst⟩ := h p (by simp [hports])
    rw [nextEvent_cons hports, portEvent_of_no_reset hrst, if_neg (by simp [hvalid])]

theorem dropPort_cons {s : State} {p : PortIn} {ps : List PortIn} (h : s.ports = p :: ps) :
    dropPort s = { s with ports := ps } := by
  rw [dropPort, h, List.tail_cons]

/-- The state a reset cycle answers (R71). -/
theorem resetCycle_eq (s : State) : resetCycle s = { s with pipe := List.replicate s.latency none, rsp := none } := by
  rw [resetCycle, List.map_const', State.latency]

theorem afterCycle_of_reset {s : State} {p : PortIn} {ps : List PortIn} (h : s.ports = p :: ps) (hrst : p.rst = true)
    (hlatency : s.latency ≠ 0) :
    afterCycle s = { ports := ps, pipe := List.replicate s.latency none, rsp := none, log := s.log } := by
  rw [afterCycle, nextEvent_cons h, portEvent_of_reset hrst hlatency, dropPort_cons h]
  exact resetCycle_eq _

/-- The next state of an operation is the one its response entered. -/
theorem next_eq_of_exec {i : Instr} {s t : State} (h : exec i s = .next t) : t = clockPipe (some (respond i)) s :=
  Host.Outcome.next.inj (h.symm.trans (BitPacker.exec_of_respond rfl s))

theorem cycles_eq_next (k : Nat) (s : State) : cycles k s = .next (afterCycles k s) := run_eq_next k s

/-! ## Cycles without reset (R75) -/

theorem noReset_head {ps : List PortIn} {k : Nat} (h : NoReset (ps.take (k + 1))) : ∀ p ∈ ps.head?, p.rst = false := by
  cases ps with
  | nil => nofun
  | cons p ps =>
    intro q hq
    exact h q (by simp_all)

theorem noReset_tail {ps : List PortIn} {k : Nat} (h : NoReset (ps.take (k + 1))) : NoReset (ps.tail.take k) := by
  cases ps with
  | nil =>
    rw [List.tail_nil, List.take_nil]
    nofun
  | cons p ps => exact fun q hq => h q (List.mem_cons_of_mem p hq)

/-- What the pipeline holds and the response that enters, against what comes out and what it holds then. -/
theorem afterCycle_shift {s : State} (h : ∀ p ∈ s.ports.head?, p.rst = false) :
    s.pipe ++ [takenResponse s.ports] = (afterCycle s).rsp :: (afterCycle s).pipe := by
  rw [afterCycle_eq_clockPipe h]
  exact clockPipe_shift (dropPort s) _

theorem owed_afterCycle {s : State} (h : ∀ p ∈ s.ports.head?, p.rst = false) :
    owed (afterCycle s) = owed s ++ (takenResponse s.ports).toList := by
  rw [afterCycle_eq_clockPipe h, owed_clockPipe, owed_dropPort]

/-- What stands at place `m`, counted from the oldest in flight through the one that enters, is on the ports `m` cycles
after the coming one. -/
theorem rsp_afterCycles {m : Nat} {s : State} {r : Option Response} (hm : (s.pipe ++ [takenResponse s.ports])[m]? = some r)
    (h : NoReset (s.ports.take (m + 1))) : (afterCycles (m + 1) s).rsp = r := by
  induction m generalizing s with
  | zero =>
    rw [afterCycle_shift (noReset_head h)] at hm
    exact Option.some.inj hm
  | succ m ih =>
    rw [afterCycle_shift (noReset_head h), List.getElem?_cons_succ] at hm
    refine ih (s := afterCycle s) ?_ (by rw [afterCycle_ports]; exact noReset_tail h)
    obtain ⟨hlt, -⟩ := List.getElem?_eq_some_iff.mp hm
    rw [List.getElem?_append_left hlt, hm]

theorem requestsOf_cons (p : PortIn) (ps : List PortIn) :
    (requestsOf (p :: ps)).map transact = (takenResponse (p :: ps)).toList ++ (requestsOf ps).map transact := by
  unfold requestsOf takenResponse
  cases hvalid : p.reqValid <;> simp [hvalid]

theorem requestsOf_take_succ (k : Nat) (ps : List PortIn) : (requestsOf (ps.take (k + 1))).map transact =
    (takenResponse ps).toList ++ (requestsOf (ps.tail.take k)).map transact := by
  cases ps with
  | nil => simp [requestsOf, takenResponse]
  | cons p ps =>
    rw [List.take_succ_cons, requestsOf_cons]
    rfl

/-- Each cycle adds what it takes to what is owed. -/
theorem owed_afterCycles {k : Nat} {s : State} (h : NoReset (s.ports.take k)) :
    owed (afterCycles k s) = owed s ++ (requestsOf (s.ports.take k)).map transact := by
  induction k generalizing s with
  | zero => simp [afterCycles, requestsOf]
  | succ k ih =>
    have htail : NoReset ((afterCycle s).ports.take k) := by rw [afterCycle_ports]; exact noReset_tail h
    rw [afterCycles, ih htail, owed_afterCycle (noReset_head h), afterCycle_ports, requestsOf_take_succ,
      List.append_assoc]

/-! ## Draining the pipeline -/

theorem afterCycles_add (j k : Nat) (s : State) : afterCycles (j + k) s = afterCycles k (afterCycles j s) := by
  induction j generalizing s with
  | zero => rw [Nat.zero_add, afterCycles]
  | succ j ih => rw [Nat.succ_add, afterCycles, ih, afterCycles]

/-- Past the plan every cycle is idle: empty entries push out what is in flight. -/
theorem pipe_past_plan {k : Nat} {s : State} (h : s.ports = []) :
    (afterCycles k s).pipe = (s.pipe ++ List.replicate k none).drop k := by
  induction k generalizing s with
  | zero => simp [afterCycles]
  | succ k ih =>
    have hshift := afterCycle_shift (s := s) (by simp [h])
    rw [h, takenResponse] at hshift
    rw [afterCycles, ih (by rw [afterCycle_ports, h, List.tail_nil]), List.replicate_succ, List.append_cons, hshift]
    rfl

/-- A drained pipeline owes nothing: all is recorded. -/
theorem log_of_drained {s : State} {n : Nat} (h : s.pipe = List.replicate n none) : s.log = owed s := by
  have hnone : List.filterMap id (List.replicate n (none : Option Response)) = [] := by simp
  rw [owed, h, hnone, List.append_nil]

/-- Once the plan is used up, `LATENCY` cycles record all that is owed. -/
theorem log_past_plan {s : State} (h : s.ports = []) : (afterCycles s.latency s).log = owed s := by
  have hdrained : (afterCycles s.latency s).pipe = List.replicate s.latency none := by
    rw [pipe_past_plan h]
    exact List.drop_left
  have howed := owed_afterCycles (k := s.latency) (s := s) (by rw [h, List.take_nil]; nofun)
  rw [log_of_drained hdrained, howed, h, List.take_nil]
  exact List.append_nil _

theorem owed_planned (n : Nat) (ws : List ReqWord) : owed (planRequests ws (State.resetWith n)) = [] := by
  simp [owed]

/-- Requests planned one a cycle from reset are all answered, in order, `LATENCY` cycles after the last. -/
theorem log_of_planned (n : Nat) (ws : List ReqWord) :
    (afterCycles (ws.length + n) (planRequests ws (State.resetWith n))).log = ws.map transact := by
  set s := planRequests ws (State.resetWith n)
  have hports : s.ports = ws.map presentRequest := List.nil_append _
  have hlen : ws.length = s.ports.length := by rw [hports, List.length_map]
  have hplan : s.ports.take ws.length = ws.map presentRequest := by rw [hlen, List.take_length, hports]
  have hquiet : NoReset (s.ports.take ws.length) := by
    intro p hp
    obtain ⟨w, -, rfl⟩ := List.mem_map.mp (hplan ▸ hp)
    rfl
  have hdone : (afterCycles ws.length s).ports = [] := by rw [afterCycles_ports, hlen, List.drop_length]
  have hlatency : (afterCycles ws.length s).latency = n :=
    (afterCycles_pipe_length ws.length s).trans List.length_replicate
  have hlog := log_past_plan hdone
  rw [hlatency, ← afterCycles_add, owed_afterCycles hquiet, hplan, requestsOf_map_presentRequest, owed_planned] at hlog
  exact hlog

/-! ## After a reset cycle (R71) -/

/-- The `m` oldest cells in flight are empty, so nothing is due in the next `m` cycles. -/
def NothingDue (m : Nat) (s : State) : Prop := ∃ rest, s.pipe = List.replicate m none ++ rest

/-- Whatever enters the pipeline stands behind the empty cells. -/
theorem clockPipe_nothingDue {m : Nat} {s : State} (h : NothingDue (m + 1) s) (e : Option Response) :
    NothingDue m (clockPipe e s) ∧ (clockPipe e s).rsp = none ∧ (clockPipe e s).log = s.log := by
  obtain ⟨rest, hrest⟩ := h
  have hshift := clockPipe_shift s e
  rw [hrest, List.replicate_succ, List.cons_append, List.cons_append, List.append_assoc] at hshift
  obtain ⟨hrsp, hpipe⟩ := List.cons.inj hshift
  refine ⟨⟨_, hpipe.symm⟩, hrsp.symm, ?_⟩
  rw [clockPipe_log, ← hrsp]
  exact List.append_nil _

theorem resetCycle_nothingDue {m : Nat} {s : State} (h : NothingDue (m + 1) s) : NothingDue m (resetCycle s) := by
  obtain ⟨rest, hrest⟩ := h
  refine ⟨none :: rest.map fun _ => none, ?_⟩
  rw [resetCycle_pipe, hrest, List.map_append, List.map_replicate, List.replicate_succ', List.append_assoc]
  rfl

theorem afterCycle_nothingDue {m : Nat} {s : State} (h : NothingDue (m + 1) s) :
    NothingDue m (afterCycle s) ∧ (afterCycle s).rsp = none ∧ (afterCycle s).log = s.log := by
  have hdrop : NothingDue (m + 1) (dropPort s) := h
  unfold afterCycle
  split
  · exact ⟨resetCycle_nothingDue hdrop, rfl, rfl⟩
  · exact clockPipe_nothingDue hdrop none
  · exact clockPipe_nothingDue hdrop _

theorem afterCycles_nothingDue {k m : Nat} {s : State} (h : NothingDue m s) (hk : k ≤ m) (hrsp : s.rsp = none) :
    (afterCycles k s).rsp = none ∧ (afterCycles k s).log = s.log := by
  induction k generalizing m s with
  | zero => exact ⟨hrsp, rfl⟩
  | succ k ih =>
    obtain ⟨m, rfl⟩ := Nat.exists_eq_add_of_le' (Nat.one_le_of_lt hk)
    obtain ⟨hdue, hrsp', hlog⟩ := afterCycle_nothingDue h
    rw [afterCycles, ← hlog]
    exact ih hdue (Nat.le_of_succ_le_succ hk) hrsp'

/-! ## The good states (R75, R78) -/

theorem answers_transact (w : ReqWord) : Answers (transact w) := ⟨w, rfl⟩

/-- What comes out of the pipeline and what stays in it was in flight or has just entered. -/
theorem answers_clockPipe {s : State} {e : Option Response} (hs : Good s) (he : ∀ r, e = some r → Answers r)
    {r : Response} (hr : some r ∈ (clockPipe e s).rsp :: (clockPipe e s).pipe) : Answers r := by
  rw [← clockPipe_shift, List.mem_append, List.mem_singleton] at hr
  obtain hr | hr := hr
  · exact hs.inFlight r hr
  · exact he r hr.symm

theorem good_clockPipe {s : State} {e : Option Response} (hs : Good s) (he : ∀ r, e = some r → Answers r) :
    Good (clockPipe e s) where
  inFlight r hr := answers_clockPipe hs he (List.mem_cons_of_mem _ hr)
  onPorts r hr := ⟨answers_clockPipe hs he (hr ▸ List.mem_cons_self), by
    rw [clockPipe_log, hr]
    exact List.getLast?_concat⟩
  recorded r hr := by
    rw [clockPipe_log, List.mem_append, Option.mem_toList] at hr
    obtain hr | hr := hr
    · exact hs.recorded r hr
    · exact answers_clockPipe hs he (hr ▸ List.mem_cons_self)

theorem good_resetCycle {s : State} (hs : Good s) : Good (resetCycle s) where
  inFlight r hr := by simp at hr
  onPorts r hr := by simp at hr
  recorded := hs.recorded

theorem good_dropPort {s : State} (hs : Good s) : Good (dropPort s) := ⟨hs.inFlight, hs.onPorts, hs.recorded⟩

theorem good_afterCycle {s : State} (hs : Good s) : Good (afterCycle s) := by
  have hdrop := good_dropPort hs
  unfold afterCycle
  split
  · exact good_resetCycle hdrop
  · exact good_clockPipe hdrop nofun
  next w _ =>
    refine good_clockPipe hdrop ?_
    rintro r ⟨rfl⟩
    exact answers_transact w

theorem good_resetWith (n : Nat) : Good (State.resetWith n) where
  inFlight r hr := by simp at hr
  onPorts r hr := by simp at hr
  recorded r hr := by simp at hr

/-! ## The obligations -/

/-- Settles O46: a reset cycle leaves nothing in flight; any other puts in an answer or nothing. -/
theorem stepKeepsOnlyTrueAnswers : Obligations.StepKeepsOnlyTrueAnswers := by
  intro s t hs hstep
  obtain rfl : afterCycle s = t := Host.Outcome.next.inj ((step_eq_next s).symm.trans hstep)
  exact good_afterCycle hs

/-- Settles O47: nothing is in flight, presented or recorded. -/
theorem resetIsGood : Obligations.ResetIsGood := ⟨good_resetWith _, good_resetWith⟩

/-- Settles O35: what the pipeline held and what enters is what comes out and what it holds then. -/
theorem pipelineShiftsOneCell : Obligations.PipelineShiftsOneCell :=
  fun e s => ⟨clockPipe_shift s e, clockPipe_log s e, clockPipe_ports s e⟩

/-- Settles O36: an operation reads nothing of the state. -/
theorem responseDependsOnTheRequestAlone : Obligations.ResponseDependsOnTheRequestAlone :=
  fun i => ⟨respond i, rfl, BitPacker.exec_of_respond rfl⟩

/-- Settles O37: all an operation does is one shift of the pipeline. -/
theorem operationsChangeNothingElse : Obligations.OperationsChangeNothingElse := by
  intro i s t h
  obtain rfl := next_eq_of_exec h
  exact ⟨clockPipe_ports _ _, clockPipe_pipe_length _ _, ⟨respond i, clockPipe_shift _ _⟩, clockPipe_log _ _⟩

/-- Settles O38: such a cycle's ports ask for the joined word. -/
theorem stepRunsTheDecodedRequest : Obligations.StepRunsTheDecodedRequest := by
  intro s p ps hports hvalid hrst
  rw [step, nextEvent_cons hports, portEvent_of_no_reset hrst, if_pos hvalid, dropPort_cons hports]
  rfl

/-- Settles O39: such a cycle's ports ask for nothing. -/
theorem idleStepPresentsWhatIsDue : Obligations.IdleStepPresentsWhatIsDue := by
  intro s h
  rw [step, nextEvent_eq_idle h]
  rfl

/-- Settles O40: after a reset cycle `LATENCY` empty cells stand before all that enters later; with `LATENCY` 0 the event
on the ports does not depend on `rst`. -/
theorem resetDropsWhatIsInFlight : Obligations.ResetDropsWhatIsInFlight := by
  refine ⟨fun s p ps hports hrst hlatency => ?_, fun s p ps hports hlatency => ?_⟩
  · have hcycle := afterCycle_of_reset hports hrst hlatency
    refine ⟨(step_eq_next s).trans (congrArg _ hcycle), fun k hk => ⟨_, cycles_eq_next _ _, ?_⟩⟩
    have hdue : NothingDue s.latency (afterCycle s) := ⟨[], by rw [hcycle, List.append_nil]⟩
    have hquiet := afterCycles_nothingDue hdue hk (by rw [hcycle])
    rw [hcycle] at hquiet
    rw [afterCycles, hcycle]
    exact hquiet
  · have hevent : nextEvent s = nextEvent { s with ports := { p with rst := false } :: ps } := by
      rw [nextEvent_cons hports, nextEvent_cons rfl, portEvent_of_no_reset (.inr hlatency),
        portEvent_of_no_reset (.inl rfl)]
    rw [step, step, hevent, dropPort_cons hports, dropPort_cons rfl]

/-- Settles O41: every cell is the empty one it was made with. -/
theorem resetStateHoldsNothing : Obligations.ResetStateHoldsNothing :=
  ⟨fun _ => ⟨rfl, List.length_replicate, fun _ he => List.eq_of_mem_replicate he⟩, ⟨_, rfl⟩⟩

/-- Settles O42: every step answers a next state, with the pipeline as long as before. -/
theorem everyRunGoesOn : Obligations.EveryRunGoesOn :=
  fun k s => ⟨_, cycles_eq_next k s, afterCycles_pipe_length k s, afterCycles_ports k s⟩

/-- Settles O43: what enters stands behind the `LATENCY` cells in flight. -/
theorem responseComesLatencyCyclesLater : Obligations.ResponseComesLatencyCyclesLater := by
  intro s p ps hports hvalid hquiet
  refine ⟨_, cycles_eq_next _ _, rsp_afterCycles ?_ hquiet⟩
  rw [State.latency, List.getElem?_concat_length, hports, takenResponse, if_pos hvalid]
  rfl

/-- Settles O44: each cycle adds what it takes to what is owed. -/
theorem responsesComeInRequestOrder : Obligations.ResponsesComeInRequestOrder :=
  fun _ _ hquiet => ⟨_, cycles_eq_next _ _, owed_afterCycles hquiet⟩

/-- Settles O45: the planned requests are owed when the plan ends, and `n` idle cycles record them. -/
theorem clockedMachineRefinesTheFunction : Obligations.ClockedMachineRefinesTheFunction :=
  fun n ws => ⟨_, cycles_eq_next _ _, log_of_planned n ws⟩

end Sys2Proof.Pipeline
end

section
/-! PROOFS. The two tables (R17, R18, R30), the text form of a ULID (R38, R40, R43, R49), and the order of fields, values
and texts (R52, R53). -/

namespace Sys2Proof.TextForm

open Sys2Proof.Laws Sys2Proof.Machine

/-! ## The entries of `DEC_LUT` (R18, R30) -/

theorem decLut_of_invalid {c : Byte} (h : (decLut c).valid = false) : decLut c = ⟨false, 0⟩ := by
  unfold decLut at h ⊢
  split at h
  · cases h
  · rfl

theorem decLut_lower_twin {c : Byte} (hlo : 0x61#8 ≤ c) (hhi : c ≤ 0x7A#8) : decLut c = decLut (c - 0x20#8) := by
  have htwin : upperCase c = c - 0x20#8 := if_pos ⟨hlo, hhi⟩
  rw [← decLut_upperCase c, htwin]

/-- A valid code of no lower-case letter is the code its symbol has in `ENC_LUT`. -/
theorem decLut_outside_alphabet {c : Byte} (henc : ∀ v, encLut v ≠ c) (hlower : ¬ (0x61#8 ≤ c ∧ c ≤ 0x7A#8)) :
    decLut c = ⟨false, 0⟩ := by
  refine decLut_of_invalid ((Bool.eq_false_or_eq_true _).resolve_left fun hvalid => henc (decLut c).value ?_)
  have hsame : upperCase c = c := if_neg hlower
  exact (encLut_decLut c hvalid).trans hsame

theorem codes_between : ∀ c ∈ (upperRows ++ lowerRows).map Prod.fst, ¬ (c < 0x20#8 ∨ 0x80#8 ≤ c) := by decide

theorem decLut_control_or_high {c : Byte} (h : c < 0x20#8 ∨ 0x80#8 ≤ c) : (decLut c).valid = false :=
  (Bool.eq_false_or_eq_true _).resolve_left fun hvalid => codes_between c ((decLut_valid_iff c).mp hvalid) h

/-! ## The groups of a value (R38) -/

theorem group_eq_slice (v : Buf) (i : Nat) : group v i = v.extractLsb' (125 - 5 * i) 5 := slice_setWidth v (by omega)

theorem toNat_group_shift (v : Buf) {i : Nat} (hi : i < 26) :
    (group v i).toNat = (v.toNat >>> (5 * (25 - i))) % 32 := by
  rw [toNat_group v hi, Nat.shiftRight_eq_div_pow, Nat.pow_mul]

theorem group_zero (v : Buf) : group v 0 = (0 : BitVec 2) ++ v.extractLsb' 125 3 := by
  apply BitVec.eq_of_toNat_eq
  rw [toNat_group v (by omega), toNat_concat, BitVec.extractLsb'_toNat, Nat.shiftRight_eq_div_pow]
  have hv := v.isLt
  simp only [BitVec.ofNat_eq_ofNat, BitVec.toNat_ofNat]
  omega

/-- The first ten groups lie within the timestamp and the two zeros above it. -/
theorem group_timestamp (u : Ulid) {i : Nat} (hi : i < 10) :
    group (ulidValue u) i = ((0 : BitVec 2) ++ u.timestamp).extractLsb' (45 - 5 * i) 5 := by
  have hpadded : (0 : BitVec 2) ++ u.timestamp = u.timestamp.setWidth 50 := (BitVec.setWidth_eq_append (by omega)).symm
  rw [group_eq_slice, hpadded, slice_setWidth _ (by omega)]
  exact slice_append_high u.timestamp u.randomness (by omega)

/-- The last sixteen lie within the randomness. -/
theorem group_randomness (u : Ulid) {i : Nat} (hi : i < 16) :
    group (ulidValue u) (10 + i) = u.randomness.extractLsb' (75 - 5 * i) 5 := by
  have hk : 125 - 5 * (10 + i) = 75 - 5 * i := by omega
  rw [group_eq_slice, hk]
  exact slice_append_low u.timestamp u.randomness (by omega)

/-! ## The texts `DECODE` accepts (R43, R49) -/

/-- R49's set is what passes the three checks. -/
theorem accepted_iff (len : BitVec 8) (t : Text) :
    Accepted len t ↔ len = 26#8 ∧ badCharacter t = false ∧ firstAboveSeven t = false := by
  unfold Accepted
  rw [Base32Decoder.badCharacter_false_iff_mem, Base32Decoder.firstAboveSeven_false_iff]
  refine and_congr_right fun _ => and_congr_right fun hall => ?_
  exact (decLut_le_seven_iff _ ((decLut_valid_iff _).mpr (hall 0 (by omega)))).symm

theorem decode_status_eq_ok_iff (len : BitVec 8) (t : Text) :
    (decodeTextResponse len t).status = .ok ↔ Accepted len t := by
  rw [accepted_iff]
  obtain ⟨hl, h⟩ | ⟨hl, hc, h⟩ | ⟨hl, hc, hf, h⟩ | ⟨hl, hc, hf, h⟩ := decodeTextResponse_cases len t
  · rw [h]; simp [hl]
  · rw [h]; simp [hc]
  · rw [h]; simp [hf]
  · rw [h]; simp [hl, hc, hf]

theorem decodeTextResponse_of_accepted {len : BitVec 8} {t : Text} (h : Accepted len t) :
    decodeTextResponse len t = ⟨.ok, (textBuf t).setWidth 208⟩ := by
  obtain ⟨rfl, hc, hf⟩ := (accepted_iff len t).mp h
  exact decodeTextResponse_ok hc hf

theorem toNat_textBuf_eq_sum {t : Text} (hf : firstAboveSeven t = false) :
    (textBuf t).toNat = ∑ i ∈ Finset.range 26, (decLut (cell t i)).value.toNat * 32 ^ (25 - i) := by
  rw [textBuf, BitPacker.toNat_lowSlice ((joinGroups_textValues_lt_iff t).mpr hf),
    Base32Decoder.toNat_joinGroups_textValues]

/-! ## Counting them

A text is a choice of 26 cells, and acceptance is a condition on each cell by itself. -/

/-- The codes R49 allows in cell `i`: the 54, and in the first cell only '0' to '7'. -/
def AllowedCode (i : Fin 26) (c : Byte) : Prop :=
  c ∈ (upperRows ++ lowerRows).map Prod.fst ∧ (i = 0 → 0x30#8 ≤ c ∧ c ≤ 0x37#8)

theorem accepted_iff_allowed (t : Text) : Accepted 26#8 t ↔ ∀ i : Fin 26, AllowedCode i (cell t i) := by
  constructor
  · rintro ⟨-, hall, hfirst⟩ i
    exact ⟨hall i i.isLt, by rintro rfl; exact hfirst⟩
  · intro h
    obtain ⟨-, hfirst⟩ := h 0
    exact ⟨rfl, fun i hi => (h ⟨i, hi⟩).1, hfirst rfl⟩

/-- The text of 26 chosen cells. -/
def textOfCells (f : Fin 26 → Byte) : Text := joinCells (List.ofFn f)

theorem cell_textOfCells (f : Fin 26 → Byte) (i : Fin 26) : cell (textOfCells f) i = f i :=
  (cell_joinCells List.length_ofFn i.isLt).trans (List.getElem_ofFn _)

theorem textOfCells_cell (t : Text) : textOfCells (fun i => cell t i) = t := by
  have hcells : List.ofFn (fun i : Fin 26 => cell t i) = cells t := by
    refine List.ext_getElem (List.length_ofFn.trans (length_cells t).symm) fun i _ _ => ?_
    simp only [List.getElem_ofFn, cells, List.getElem_map, List.getElem_range]
  rw [textOfCells, hcells, joinCells_cells]

theorem accepted_textOfCells {f : Fin 26 → Byte} (h : ∀ i, AllowedCode i (f i)) : Accepted 26#8 (textOfCells f) := by
  refine (accepted_iff_allowed _).mpr fun i => ?_
  rw [cell_textOfCells]
  exact h i

/-- An accepted text as its 26 allowed codes. -/
def acceptedEquivCodes : Subtype (Accepted 26#8) ≃ ∀ i : Fin 26, {c : Byte // AllowedCode i c} where
  toFun t i := ⟨cell t.1 i, (accepted_iff_allowed t.1).mp t.2 i⟩
  invFun f := ⟨textOfCells fun i => (f i).1, accepted_textOfCells fun i => (f i).2⟩
  left_inv t := Subtype.ext (textOfCells_cell t.1)
  right_inv f := funext fun i => Subtype.ext (cell_textOfCells (fun i => (f i).1) i)

/-- Counting the codes of a list without repetitions. -/
theorem card_of_codes {P : Byte → Prop} (codes : List Byte) (hnodup : codes.Nodup) (h : ∀ c, P c ↔ c ∈ codes) :
    Nat.card {c : Byte // P c} = codes.length := by
  have hset : ∀ c, c ∈ codes.toFinset ↔ P c := fun c => List.mem_toFinset.trans (h c).symm
  rw [Nat.subtype_card codes.toFinset hset, List.toFinset_card_of_nodup hnodup]

/-- The codes of '0' to '7' among the 54. -/
def firstCodes : List Byte := ((upperRows ++ lowerRows).map Prod.fst).filter fun c => 0x30#8 ≤ c ∧ c ≤ 0x37#8

theorem card_allowed_first : Nat.card {c : Byte // AllowedCode 0 c} = 8 :=
  card_of_codes firstCodes (by decide) fun c => by
    rw [AllowedCode, firstCodes, List.mem_filter, imp_iff_right rfl, decide_eq_true_iff]

theorem card_allowed_later (i : Fin 25) : Nat.card {c : Byte // AllowedCode i.succ c} = 54 :=
  card_of_codes ((upperRows ++ lowerRows).map Prod.fst) (by decide) fun c =>
    and_iff_left fun h => absurd h (Fin.succ_ne_zero i)

/-! ## Upper case (R30) -/

theorem cells_canonicalText (t : Text) : cells (canonicalText t) = (cells t).map upperCase :=
  cells_joinCells (by simp [length_cells])

theorem badCharacter_canonicalText (t : Text) : badCharacter (canonicalText t) = badCharacter t := by
  rw [badCharacter, badCharacter, cells_canonicalText, List.any_map]
  simp only [Function.comp_def, decLut_upperCase]

theorem firstAboveSeven_canonicalText (t : Text) : firstAboveSeven (canonicalText t) = firstAboveSeven t := by
  rw [firstAboveSeven, firstAboveSeven, Contracts.cell_canonicalText t (by omega), decLut_upperCase]

theorem textBuf_canonicalText (t : Text) : textBuf (canonicalText t) = textBuf t := by
  rw [textBuf, textBuf, textValues, textValues, cells_canonicalText, List.map_map]
  simp only [Function.comp_def, decLut_upperCase]

theorem decodeTextResponse_canonicalText (len : BitVec 8) (t : Text) :
    decodeTextResponse len (canonicalText t) = decodeTextResponse len t := by
  unfold decodeTextResponse
  rw [badCharacter_canonicalText, firstAboveSeven_canonicalText, textBuf_canonicalText]

/-! ## Order (R52, R53) -/

theorem ulidValue_injective {a b : Ulid} (h : ulidValue a = ulidValue b) : a = b := by
  rw [← BitPacker.ulidOf_ulidValue a, h, BitPacker.ulidOf_ulidValue]

theorem ulidLt_iff_value_lt (a b : Ulid) : ulidLt a b ↔ ulidValue a < ulidValue b := by
  rw [ulidLt, BitVec.lt_def, BitVec.lt_def, BitVec.lt_def, ← BitVec.toNat_inj, BitPacker.toNat_ulidValue,
    BitPacker.toNat_ulidValue]
  have ha := a.randomness.isLt
  have hb := b.randomness.isLt
  omega

/-- The table is increasing, so texts sort as their groups do, and these as the values. -/
theorem lt_iff_lex_encoded (a b : Buf) :
    a < b ↔ List.Lex (· < ·) (cells (encodeResponse a).dout) (cells (encodeResponse b).dout) := by
  rw [cells_encodeResponse, cells_encodeResponse, lt_iff_lex_groups]
  exact (lex_map encLut _ _ encLut_lt_iff (fun _ _ => encLut_injective) _ _).symm

/-- 25 times '0', then 'a'. -/
def endsInLowerA : Text := 0x3030303030303030303030303030303030303030303030303061

/-- 25 times '0', then 'B'. -/
def endsInUpperB : Text := 0x3030303030303030303030303030303030303030303030303042

theorem accepted_endsInLowerA : Accepted 26 endsInLowerA := by unfold Accepted; decide

theorem accepted_endsInUpperB : Accepted 26 endsInUpperB := by unfold Accepted; decide

/-- 'a' comes after 'B' as a code and before it as a symbol. -/
theorem mixed_case_sorts_otherwise : endsInUpperB < endsInLowerA ∧
    (respond (.decode 26 endsInLowerA)).dout < (respond (.decode 26 endsInUpperB)).dout := by decide

/-! ## The obligations -/

/-- Settles O8: 32 entries, evaluated, and the law of the codes' order. -/
theorem encoderTableIsTheAlphabetInCodeOrder : Obligations.EncoderTableIsTheAlphabetInCodeOrder :=
  ⟨by decide, fun v w => (encLut_lt_iff v w).mpr⟩

/-- Settles O9: the two tables against each other; the count of the valid codes and the ten rejected ones, evaluated. -/
theorem decoderTableInvertsTheEncoderTable : Obligations.DecoderTableInvertsTheEncoderTable :=
  ⟨decLut_encLut, fun _ => decLut_lower_twin, fun _ => decLut_outside_alphabet, fun _ => decLut_of_invalid, by decide,
    by decide, fun _ => decLut_control_or_high⟩

/-- Settles O15: a group is a slice of the value, the first one with two zeros above it. -/
theorem groupsCutTheValueInFives : Obligations.GroupsCutTheValueInFives :=
  ⟨fun v _ hi => toNat_group_shift v hi, fun v => ⟨group_zero_le v, group_zero v⟩, fun v i _ _ => group_eq_slice v i⟩

/-- Settles O16: the boundary of the fields is a boundary of groups. -/
theorem noCharacterMixesTheTwoFields : Obligations.NoCharacterMixesTheTwoFields :=
  fun u => ⟨fun _ hi => group_timestamp u hi, fun _ hi => group_randomness u hi⟩

/-- Settles O18: decoding undoes encoding, and a first cell of an encoded text is at most '7'. -/
theorem encoderIsInjectiveAndNotOnto : Obligations.EncoderIsInjectiveAndNotOnto := by
  refine ⟨fun a b hne heq => hne ?_, fun t hfirst b heq => ?_⟩
  · have hbuf : textBuf (encodeResponse a).dout = textBuf (encodeResponse b).dout := congrArg textBuf heq
    rwa [textBuf_encodeResponse, textBuf_encodeResponse] at hbuf
  · have hle : cell t 0 ≤ 0x37#8 := heq ▸ Base32Encoder.cell_zero_encodeResponse_le b
    exact absurd (BitVec.le_trans hfirst hle) (by decide)

/-- Settles O21: the number a text spells fits 128 bits when its first value is at most 7. -/
theorem decodedValueIsTheNumberSpelled : Obligations.DecodedValueIsTheNumberSpelled := by
  intro len t h
  obtain ⟨-, -, hf⟩ := (accepted_iff len t).mp h
  have hresponse : respond (.decode len t) = ⟨.ok, (textBuf t).setWidth 208⟩ := decodeTextResponse_of_accepted h
  rw [hresponse]
  exact ⟨rfl, (BitVec.toNat_setWidth_of_le (by omega)).trans (toNat_textBuf_eq_sum hf)⟩

/-- Settles O26: the accepted set is what passes the three checks. -/
theorem decodeAcceptsExactlyTheAcceptedSet : Obligations.DecodeAcceptsExactlyTheAcceptedSet := decode_status_eq_ok_iff

/-- Settles O27: 8 codes for the first cell, 54 for each of the other 25. -/
theorem acceptedTextsAreCounted : Obligations.AcceptedTextsAreCounted := by
  unfold Obligations.AcceptedTextsAreCounted
  rw [Nat.card_congr acceptedEquivCodes, Nat.card_pi, Fin.prod_univ_succ, card_allowed_first,
    Finset.prod_congr rfl fun i _ => card_allowed_later i, Finset.prod_const, Finset.card_univ, Fintype.card_fin]

/-- Settles O28: the checks and the buffer read the cells through `DEC_LUT`, which takes both cases alike. -/
theorem decodeDoesNotSeeCase : Obligations.DecodeDoesNotSeeCase := decodeTextResponse_canonicalText

/-- Settles O33: the value is the number of the two fields, and the bytes are its digits in base 256. -/
theorem orderOfFieldsValueAndBytesIsOne : Obligations.OrderOfFieldsValueAndBytesIsOne := by
  refine fun a b => ⟨ulidLt_iff_value_lt a b, lt_iff_lex_bufBytes _ _, ?_, congrArg ulidValue, ulidValue_injective⟩
  rw [← Ulid.mk.injEq]

/-- Settles O34: encoded texts sort as their groups; "0…0a" and "0…0B" sort against their values. -/
theorem textOrderIsValueOrder : Obligations.TextOrderIsValueOrder := by
  obtain ⟨htext, hvalue⟩ := mixed_case_sorts_otherwise
  refine ⟨fun a b => ⟨?_, lt_iff_lex_encoded a b⟩,
    endsInLowerA, endsInUpperB, accepted_endsInLowerA, accepted_endsInUpperB, htext, hvalue⟩
  exact (lt_iff_lex_encoded a b).trans (lt_iff_lex_cells _ _).symm

end Sys2Proof.TextForm
end

section
/-! PROOFS. What a request word is answered, whatever its operands (R37, R57, R61). -/

namespace Sys2Proof.Transactions

open Sys2Proof.Machine

/-- Settles O13: the fields of the buffer are narrower than their wires, and `PACK` of the fields is the value. -/
theorem unpackResultIsAlwaysInRange : Obligations.UnpackResultIsAlwaysInRange := by
  intro l l' d
  have hunpack : transact (joinRequest 0b01#2 l d) = unpackResponse (bufIn d) :=
    congrArg respond (Encoding.decodeRequest_join_unpack l d)
  rw [hunpack]
  refine ⟨?_, ?_, ?_⟩
  · exact (BitPacker.slice_timestamp_wires _ (k := 48) (by omega)).trans (Laws.slice_past _ (by omega))
  · exact (BitPacker.slice_randomness_wires _ (by omega)).trans (Laws.slice_past _ (by omega))
  · have hpack := Contracts.respond_pack_fields (ulidOf (bufIn d))
    rw [BitPacker.ulidValue_ulidOf] at hpack
    rw [transact, Encoding.decodeRequest_join_pack, BitPacker.tsIn_unpackResponse, BitPacker.rndIn_unpackResponse]
    exact hpack

/-- Settles O31: the statuses operation by operation; the block keeps nothing of a request. -/
theorem failuresCarryNothingAndLeaveNothing : Obligations.FailuresCarryNothingAndLeaveNothing := by
  refine fun w => ⟨Exceptions.transact_dout_of_error w, fun hop => ?_, fun hop => ?_, fun hop => ?_,
    fun _ t i _ => BitPacker.exec_of_respond rfl t⟩
  · rw [transact, decodeRequest_pack hop]
    exact Exceptions.pack_status_cases _ _
  · obtain hop | hop := hop
    · rw [transact, decodeRequest_unpack hop]
      rfl
    · rw [transact, decodeRequest_encode hop]
      rfl
  · rw [transact, decodeRequest_decode hop]
    exact Exceptions.decode_status_ne_rangeError _ _

end Sys2Proof.Transactions
end

section
/-! PROOFS. The host's scripts: a run line by line and where it ends (R31, R78), the static check (R31), and the
pseudo-operations (R32, R54). -/

namespace Sys2Proof.Scripts

open Sys2Proof.Laws Sys2Proof.Machine

/-! ## A run, line by line (R31) -/

@[simp] theorem consTransaction_requests (w : ReqWord) (r : Response) (run : ScriptRun) :
    (consTransaction w r run).requests = w :: run.requests := rfl
@[simp] theorem consTransaction_responses (w : ReqWord) (r : Response) (run : ScriptRun) :
    (consTransaction w r run).responses = r :: run.responses := rfl
@[simp] theorem consTransaction_bindings (w : ReqWord) (r : Response) (run : ScriptRun) :
    (consTransaction w r run).bindings = run.bindings := rfl
@[simp] theorem consTransaction_outcome (w : ReqWord) (r : Response) (run : ScriptRun) :
    (consTransaction w r run).outcome = run.outcome := rfl

section Runs

variable {ρ : ScriptEnv} {l : CoreLine} {i : Instr} (ls : List CoreLine)

theorem runLines_script_error (h : lineRequest ρ l = none) : runLines ρ (l :: ls) = ⟨[], [], ρ, .scriptError⟩ := by
  simp only [runLines, h]

theorem runLines_ok (h : lineRequest ρ l = some i) (hok : (respond i).status = .ok) :
    runLines ρ (l :: ls) =
      consTransaction (encodeRequest i) (respond i) (runLines (bindResults l (respond i).dout ρ) ls) := by
  simp only [runLines, h, Encoding.transact_encodeRequest, if_pos hok]

theorem runLines_stopped (h : lineRequest ρ l = some i) (herr : (respond i).status ≠ .ok) :
    runLines ρ (l :: ls) = ⟨[encodeRequest i], [respond i], ρ, .stopped (respond i).status⟩ := by
  simp only [runLines, h, Encoding.transact_encodeRequest, if_neg herr]

/-- Two runs end in the same way with the same bindings. -/
def SameEnd (run run' : ScriptRun) : Prop := run.outcome = run'.outcome ∧ run.bindings = run'.bindings

theorem SameEnd.trans {a b c : ScriptRun} (hab : SameEnd a b) (hbc : SameEnd b c) : SameEnd a c := by
  obtain ⟨houtcome, hbindings⟩ := hab
  obtain ⟨houtcome', hbindings'⟩ := hbc
  exact ⟨houtcome.trans houtcome', hbindings.trans hbindings'⟩

/-- A line that is answered OK with the result `d` leaves the rest of the script to run with what it binds. -/
theorem runLines_result {d : Dout} (h : lineRequest ρ l = some i) (hr : respond i = ⟨.ok, d⟩) :
    SameEnd (runLines ρ (l :: ls)) (runLines (bindResults l d ρ) ls) := by
  rw [runLines_ok ls h (by rw [hr]), hr]
  exact ⟨consTransaction_outcome _ _ _, consTransaction_bindings _ _ _⟩

/-! ## Where a run ends (R31, R78) -/

/-- A run as R31 words it: the block's responses to its requests, OK up to the last, and the last one as the outcome
says. -/
structure StopsAtFirstError (run : ScriptRun) : Prop where
  answered : run.responses = run.requests.map transact
  okBeforeLast : ∀ r ∈ run.responses.dropLast, r.status = .ok
  okIfCompleted : run.outcome = .completed → ∀ r ∈ run.responses, r.status = .ok
  stoppedByLast : ∀ e, run.outcome = .stopped e → e ≠ .ok ∧ ∃ r, run.responses.getLast? = some r ∧ r.status = e

theorem stopsAtFirstError_nil {o : ScriptOutcome} (h : ∀ e, o ≠ .stopped e) : StopsAtFirstError ⟨[], [], ρ, o⟩ where
  answered := rfl
  okBeforeLast := nofun
  okIfCompleted _ := nofun
  stoppedByLast e he := absurd he (h e)

theorem stopsAtFirstError_stopped (herr : (respond i).status ≠ .ok) :
    StopsAtFirstError ⟨[encodeRequest i], [respond i], ρ, .stopped (respond i).status⟩ where
  answered := by rw [List.map_singleton, Encoding.transact_encodeRequest]
  okBeforeLast := nofun
  okIfCompleted := nofun
  stoppedByLast := by
    rintro e ⟨rfl⟩
    exact ⟨herr, respond i, rfl, rfl⟩

theorem stopsAtFirstError_cons {run : ScriptRun} (hrun : StopsAtFirstError run) (hok : (respond i).status = .ok) :
    StopsAtFirstError (consTransaction (encodeRequest i) (respond i) run) where
  answered := by
    rw [consTransaction_responses, consTransaction_requests, List.map_cons, Encoding.transact_encodeRequest,
      hrun.answered]
  okBeforeLast r hr := by
    rw [consTransaction_responses] at hr
    cases hresponses : run.responses with
    | nil => rw [hresponses] at hr; cases hr
    | cons r' rs =>
      rw [hresponses, List.dropLast_cons_cons, ← hresponses, List.mem_cons] at hr
      obtain rfl | hr := hr
      · exact hok
      · exact hrun.okBeforeLast r hr
  okIfCompleted hdone r hr := by
    obtain rfl | hr := List.mem_cons.mp hr
    · exact hok
    · exact hrun.okIfCompleted hdone r hr
  stoppedByLast e he := by
    obtain ⟨hne, r, hlast, hst⟩ := hrun.stoppedByLast e he
    refine ⟨hne, r, ?_, hst⟩
    rw [consTransaction_responses, List.getLast?_cons, hlast]
    rfl

theorem stopsAtFirstError_runLines (ρ : ScriptEnv) (ls : List CoreLine) : StopsAtFirstError (runLines ρ ls) := by
  induction ls generalizing ρ with
  | nil => exact stopsAtFirstError_nil nofun
  | cons l ls ih =>
    cases hreq : lineRequest ρ l with
    | none =>
      rw [runLines_script_error ls hreq]
      exact stopsAtFirstError_nil nofun
    | some i =>
      by_cases hok : (respond i).status = .ok
      · rw [runLines_ok ls hreq hok]
        exact stopsAtFirstError_cons (ih _) hok
      · rw [runLines_stopped ls hreq hok]
        exact stopsAtFirstError_stopped hok

/-! ## The static check (R31) -/

/-- A value is of a kind: a number that fits the kind's wires, or a text. -/
def HasKind : ScriptValue → Kind → Prop
  | .num n, .num64 => n < 2 ^ 64
  | .num n, .num128 => n < 2 ^ 128
  | .text _, .text => True
  | _, _ => False

/-- Every name the check knows is bound, to a value of the kind it knows. -/
def Respects (Γ : KindEnv) (ρ : ScriptEnv) : Prop :=
  ∀ x k, Γ.lookup x = some k → ∃ v, ρ.lookup x = some v ∧ HasKind v k

theorem respects_nil : Respects [] [] := nofun

theorem respects_cons {Γ : KindEnv} {x : ScriptName} {k : Kind} {v : ScriptValue} (h : Respects Γ ρ)
    (hv : HasKind v k) : Respects ((x, k) :: Γ) ((x, v) :: ρ) := by
  intro y k' hy
  cases hxy : y == x with
  | true =>
    rw [List.lookup_cons, hxy] at hy ⊢
    obtain rfl : k = k' := Option.some.inj hy
    exact ⟨v, rfl, hv⟩
  | false =>
    rw [List.lookup_cons, hxy] at hy ⊢
    exact h y k' hy

/-- A number of a kind that fits `w` wires is narrow enough for them. -/
theorem num_of_fits {v : ScriptValue} {k : Kind} {w : Nat} (hv : HasKind v k) (hfit : k.fits w = true) :
    ∃ n, v = .num n ∧ n < 2 ^ w := by
  have widen : ∀ {n m : Nat}, n < 2 ^ m → m ≤ w → n < 2 ^ w := fun hn hm =>
    hn.trans_le (Nat.pow_le_pow_right (by omega) hm)
  cases k with
  | text => cases hfit
  | num64 =>
    cases v with
    | text => cases hv
    | num n => exact ⟨n, rfl, widen hv (of_decide_eq_true hfit)⟩
  | num128 =>
    cases v with
    | text => cases hv
    | num n => exact ⟨n, rfl, widen hv (of_decide_eq_true hfit)⟩

theorem numOperand_of_wf {Γ : KindEnv} {w : Nat} {o : NumOperand} (h : Respects Γ ρ) (hwf : o.wf Γ w = true) :
    ∃ v, numOperand ρ w o = some v := by
  cases o with
  | lit n => exact ⟨_, numOperand_lit ρ (of_decide_eq_true hwf)⟩
  | ref x =>
    rw [NumOperand.wf] at hwf
    cases hx : Γ.lookup x with
    | none => rw [hx] at hwf; cases hwf
    | some k =>
      rw [hx] at hwf
      obtain ⟨v, hv, hkind⟩ := h x k hx
      obtain ⟨n, rfl, hn⟩ := num_of_fits hkind hwf
      exact ⟨_, numOperand_ref hv hn⟩

theorem textOperand_ref {x : ScriptName} {t : Text} (hx : ρ.lookup x = some (.text t)) :
    textOperand ρ (.ref x) = some (26, t) := by
  simp only [textOperand, hx]

theorem textOperand_of_wf {Γ : KindEnv} {o : TextOperand} (h : Respects Γ ρ) (hwf : o.wf Γ = true) :
    ∃ v, textOperand ρ o = some v := by
  cases o with
  | lit codes => exact ⟨_, rfl⟩
  | ref x =>
    rw [TextOperand.wf] at hwf
    split at hwf
    next hx =>
      obtain ⟨v, hv, hkind⟩ := h x .text hx
      cases v with
      | num n => cases hkind
      | text t => exact ⟨_, textOperand_ref hv⟩
    next => cases hwf

/-! What each line asks for, once its operands have values. -/

theorem lineRequest_pack {a b : NumOperand} {ts : BitVec 64} {rnd : BitVec 128} (x : ScriptName)
    (ha : numOperand ρ 64 a = some ts) (hb : numOperand ρ 128 b = some rnd) :
    lineRequest ρ (.pack a b x) = some (.pack ts rnd) := by
  rw [lineRequest, ha, hb]; rfl

theorem lineRequest_unpack {a : NumOperand} {b : BitVec 128} (x y : ScriptName) (ha : numOperand ρ 128 a = some b) :
    lineRequest ρ (.unpack a x y) = some (.unpack b) := by
  rw [lineRequest, ha]; rfl

theorem lineRequest_encode {a : NumOperand} {b : BitVec 128} (x : ScriptName) (ha : numOperand ρ 128 a = some b) :
    lineRequest ρ (.encode a x) = some (.encode b) := by
  rw [lineRequest, ha]; rfl

theorem lineRequest_decode {a : TextOperand} {len : BitVec 8} {t : Text} (x : ScriptName)
    (ha : textOperand ρ a = some (len, t)) : lineRequest ρ (.decode a x) = some (.decode len t) := by
  rw [lineRequest, ha]; rfl

theorem lineRequest_of_wf {Γ : KindEnv} (h : Respects Γ ρ) (hwf : l.wf Γ = true) : ∃ i, lineRequest ρ l = some i := by
  cases l with
  | pack ts rnd b =>
    obtain ⟨hts, hrnd⟩ := Bool.and_eq_true_iff.mp hwf
    obtain ⟨_, ht⟩ := numOperand_of_wf h hts
    obtain ⟨_, hr⟩ := numOperand_of_wf h hrnd
    exact ⟨_, lineRequest_pack b ht hr⟩
  | unpack b ts rnd =>
    obtain ⟨_, hb⟩ := numOperand_of_wf h hwf
    exact ⟨_, lineRequest_unpack ts rnd hb⟩
  | encode b s =>
    obtain ⟨_, hb⟩ := numOperand_of_wf h hwf
    exact ⟨_, lineRequest_encode s hb⟩
  | decode text b =>
    obtain ⟨_, ht⟩ := textOperand_of_wf h hwf
    exact ⟨_, lineRequest_decode b ht⟩

/-- The names a line binds get values of the kinds the check gives them. -/
theorem respects_bindResults {Γ : KindEnv} (h : Respects Γ ρ) (l : CoreLine) (d : Dout) :
    Respects (l.binds ++ Γ) (bindResults l d ρ) := by
  cases l with
  | pack ts rnd b => exact respects_cons h (d.extractLsb' 0 128).isLt
  | unpack b ts rnd => exact respects_cons (respects_cons h (d.extractLsb' 128 64).isLt) (d.extractLsb' 0 128).isLt
  | encode b s => exact respects_cons h trivial
  | decode text b => exact respects_cons h (d.extractLsb' 0 128).isLt

theorem runLines_no_script_error {Γ : KindEnv} {ls : List CoreLine} (h : Respects Γ ρ)
    (hwf : scriptWf Γ ls = true) : (runLines ρ ls).outcome ≠ .scriptError := by
  induction ls generalizing Γ ρ with
  | nil => nofun
  | cons l ls ih =>
    obtain ⟨hline, hrest⟩ := Bool.and_eq_true_iff.mp hwf
    obtain ⟨i, hreq⟩ := lineRequest_of_wf h hline
    by_cases hok : (respond i).status = .ok
    · rw [runLines_ok ls hreq hok]
      exact ih (respects_bindResults h l _) hrest
    · rw [runLines_stopped ls hreq hok]
      nofun

/-! ## `TOSTRING` and `PARSE` (R32, R54) -/

/-- A name bound to the number of a word stands for that word, zero-extended. -/
theorem numOperand_ref_word {m w : Nat} (v : BitVec m) {x : ScriptName} (hx : ρ.lookup x = some (.num v.toNat))
    (hmw : m ≤ w) : numOperand ρ w (.ref x) = some (v.setWidth w) := by
  rw [← BitVec.ofNat_toNat]
  exact numOperand_ref hx (v.isLt.trans_le (Nat.pow_le_pow_right (by omega) hmw))

theorem numOperand_lit_word {m w : Nat} (v : BitVec m) (hmw : m ≤ w) :
    numOperand ρ w (.lit v.toNat) = some (v.setWidth w) := by
  rw [← BitVec.ofNat_toNat]
  exact numOperand_lit ρ (v.isLt.trans_le (Nat.pow_le_pow_right (by omega) hmw))

theorem toNat_buf_on_dout (v : Buf) : ((v.setWidth 208).extractLsb' 0 128).toNat = v.toNat := by
  rw [slice_setWidth _ (by omega), slice_all]

theorem bindResults_pack (a b : NumOperand) (x : ScriptName) (v : Buf) :
    bindResults (.pack a b x) (v.setWidth 208) ρ = (x, .num v.toNat) :: ρ := by
  rw [bindResults, toNat_buf_on_dout]

theorem bindResults_decode (a : TextOperand) (x : ScriptName) (v : Buf) :
    bindResults (.decode a x) (v.setWidth 208) ρ = (x, .num v.toNat) :: ρ := by
  rw [bindResults, toNat_buf_on_dout]

theorem bindResults_unpack (a : NumOperand) (x y : ScriptName) (u : Ulid) :
    bindResults (.unpack a x y) ((0 : BitVec 16) ++ u.timestamp.setWidth 64 ++ u.randomness.setWidth 128) ρ =
      (y, .num u.randomness.toNat) :: (x, .num u.timestamp.toNat) :: ρ := by
  have hts := tsIn_concat 0 (u.timestamp.setWidth 64) (u.randomness.setWidth 128)
  have hrnd := rndIn_concat 0 (u.timestamp.setWidth 64) (u.randomness.setWidth 128)
  rw [tsIn] at hts
  rw [rndIn] at hrnd
  rw [bindResults, hts, hrnd, BitVec.toNat_setWidth_of_le (by omega), BitVec.toNat_setWidth_of_le (by omega)]

/-- `TOSTRING` of the fields of a ULID binds the text of its value, and the script goes on. -/
theorem toString_then (u : Ulid) {a b : NumOperand} (s : ScriptName)
    (ha : numOperand ρ 64 a = some (u.timestamp.setWidth 64))
    (hb : numOperand ρ 128 b = some (u.randomness.setWidth 128)) :
    SameEnd (runLines ρ (expandLine (.toString a b s) ++ ls))
      (runLines ((s, .text (encodeResponse (ulidValue u)).dout) :: (.tmp, .num (ulidValue u).toNat) :: ρ) ls) := by
  have hpack := runLines_result (.encode (.ref .tmp) s :: ls) (lineRequest_pack .tmp ha hb)
    (Contracts.respond_pack_fields u)
  rw [bindResults_pack] at hpack
  have htmp := numOperand_ref_word (w := 128) (ρ := (.tmp, .num (ulidValue u).toNat) :: ρ) (ulidValue u)
    List.lookup_cons_self le_rfl
  rw [BitVec.setWidth_eq] at htmp
  exact hpack.trans (runLines_result ls (lineRequest_encode s htmp) (Base32Encoder.respond_encode _))

/-- `PARSE` of a text of a ULID's value binds the ULID's fields, and the script goes on. -/
theorem parse_then (u : Ulid) {a : TextOperand} {len : BitVec 8} {t : Text} (x y : ScriptName)
    (ha : textOperand ρ a = some (len, t)) (hr : respond (.decode len t) = ⟨.ok, (ulidValue u).setWidth 208⟩) :
    SameEnd (runLines ρ (expandLine (.parse a x y) ++ ls))
      (runLines ((y, .num u.randomness.toNat) :: (x, .num u.timestamp.toNat) :: (.tmp, .num (ulidValue u).toNat) :: ρ)
        ls) := by
  have hdecode := runLines_result (.unpack (.ref .tmp) x y :: ls) (lineRequest_decode .tmp ha) hr
  rw [bindResults_decode] at hdecode
  have htmp := numOperand_ref_word (w := 128) (ρ := (.tmp, .num (ulidValue u).toNat) :: ρ) (ulidValue u)
    List.lookup_cons_self le_rfl
  rw [BitVec.setWidth_eq] at htmp
  have hunpack := runLines_result ls (lineRequest_unpack x y htmp) (Contracts.respond_unpack_ulidValue u)
  rw [bindResults_unpack] at hunpack
  exact hdecode.trans hunpack

/-- What `PARSE` bound is read back under its two names, where they differ. -/
theorem lookup_parsed {v w : ScriptValue} {x y : ScriptName} (hxy : x ≠ y) :
    List.lookup x ((y, w) :: (x, v) :: ρ) = some v ∧ List.lookup y ((y, w) :: (x, v) :: ρ) = some w := by
  refine ⟨?_, List.lookup_cons_self⟩
  rw [List.lookup_cons, beq_false_of_ne hxy]
  exact List.lookup_cons_self

theorem toString_parse (u : Ulid) (s x y : ScriptName) :
    SameEnd (runScript [.toString (.lit u.timestamp.toNat) (.lit u.randomness.toNat) s, .parse (.ref s) x y])
      ⟨[], [], (y, .num u.randomness.toNat) :: (x, .num u.timestamp.toNat) :: (.tmp, .num (ulidValue u).toNat) ::
        (s, .text (encodeResponse (ulidValue u)).dout) :: (.tmp, .num (ulidValue u).toNat) :: [], .completed⟩ :=
  (toString_then _ u s (numOperand_lit_word _ (by omega)) (numOperand_lit_word _ (by omega))).trans
    (parse_then [] u x y (textOperand_ref List.lookup_cons_self) (Contracts.respond_decode_encode _))

theorem parse_toString (u : Ulid) {codes : List Byte} (s : ScriptName) {x y : ScriptName} (hxy : x ≠ y)
    (hr : respond (.decode (literalLen codes) (literalCells codes)) = ⟨.ok, (ulidValue u).setWidth 208⟩) :
    ∃ ρ, SameEnd (runScript [.parse (.lit codes) x y, .toString (.ref x) (.ref y) s])
      ⟨[], [], (s, .text (encodeResponse (ulidValue u)).dout) :: ρ, .completed⟩ := by
  have hparse := parse_then (ρ := []) (expandLine (.toString (.ref x) (.ref y) s) ++ []) u x y
    (a := .lit codes) rfl hr
  obtain ⟨hx, hy⟩ := lookup_parsed (ρ := [(.tmp, .num (ulidValue u).toNat)]) (v := .num u.timestamp.toNat)
    (w := .num u.randomness.toNat) hxy
  have hprint := toString_then [] u s (numOperand_ref_word _ hx (by omega)) (numOperand_ref_word _ hy (by omega))
  exact ⟨_, hparse.trans hprint⟩

end Runs

/-! ## The obligations -/

/-- Settles O48: two numbers in range are the fields of a ULID, and an accepted text spells the value of one. -/
theorem toStringAndParseAreInverse : Obligations.ToStringAndParseAreInverse := by
  refine ⟨fun t r s x y ht hr hxy => ?_, fun codes s x y hacc hxy => ?_⟩
  · have hend := toString_parse ⟨BitVec.ofNat 48 t, BitVec.ofNat 80 r⟩ s x y
    simp only [BitVec.toNat_ofNat, Nat.mod_eq_of_lt ht, Nat.mod_eq_of_lt hr] at hend
    obtain ⟨hdone, hbound⟩ := hend
    refine ⟨hdone, ?_⟩
    rw [hbound]
    exact lookup_parsed hxy
  · obtain ⟨-, hc, hf⟩ := (TextForm.accepted_iff _ _).mp hacc
    have hdecode := TextForm.decodeTextResponse_of_accepted hacc
    rw [← BitPacker.ulidValue_ulidOf (textBuf _)] at hdecode
    obtain ⟨ρ, hdone, hbound⟩ := parse_toString _ s hxy hdecode
    rw [BitPacker.ulidValue_ulidOf, encode_textBuf hc hf] at hbound
    refine ⟨hdone, ?_⟩
    rw [hbound]
    exact List.lookup_cons_self

/-- Settles O49: an induction on the lines; a line either ends the run or puts one OK response before the rest. -/
theorem scriptStopsAtTheFirstError : Obligations.ScriptStopsAtTheFirstError := by
  intro ls
  obtain ⟨hanswered, hbefore, hcompleted, hstopped⟩ := stopsAtFirstError_runLines [] (ls.flatMap expandLine)
  exact ⟨hanswered, hbefore, hcompleted, hstopped⟩

/-- Settles O50: the bindings keep the kinds the check gives the names, so no operand is missing. -/
theorem wellFormedScriptsRaiseNoScriptError : Obligations.WellFormedScriptsRaiseNoScriptError :=
  fun _ hwf => runLines_no_script_error respects_nil hwf

/-- Settles O51: the machine records the block's responses to the requests, and these are the run's. -/
theorem portsGiveAScriptItsResponses : Obligations.PortsGiveAScriptItsResponses := by
  intro n ls
  have hrun := (stopsAtFirstError_runLines [] (ls.flatMap expandLine)).answered
  exact ⟨_, Pipeline.cycles_eq_next _ _, (Pipeline.log_of_planned n _).trans hrun.symm⟩

end Sys2Proof.Scripts
end
